-- ==== Sys2Proof/Word.lean ====
section
/-! DEFINITION. Word.lean: the widths the host sees (20_memory.md R60 to R62).
A bus word is 32 bits and a host address 16 bits, one address per bus word. The words and digits INSIDE a big value
are integers in `[0, 2^B)` and `[0, 2^r)` (00_scope.md R10, R11), so they are natural numbers here, kept in range by
the state's well-formedness. -/

namespace Sys2Proof

/-- One 32-bit bus word: a command word, a register read, a value written (00_scope.md R8). -/
abbrev BusWord := BitVec 32

/-- A host address: 16 bits, naming one bus word (20_memory.md R60). -/
abbrev HostAddr := BitVec 16

end Sys2Proof
end

