-- ==== Sys2Proof/Config.lean ====
section
/-! DEFINITION. Config.lean: the parameters of a build of CORE (00_scope.md R7) and the free values the spec leaves
open (10_state.md R40). A model "takes three parameters as arguments": they are one field of State, so a statement
about every state is a statement about every legal build (log 1). -/

namespace Sys2Proof.Config

/-- The three parameters of 00_scope.md R7. -/
structure Params where
  /-- `B`, bits per word. -/
  B : Nat
  /-- `W`, words per big register. -/
  W : Nat
  /-- `r`, window width of the windowed method, in bits. -/
  r : Nat
deriving DecidableEq, Repr

/-- `K = B*W`, the bits of a big register (00_scope.md R7). -/
def Params.K (p : Params) : Nat := p.B * p.W

/-- `M_ARY = 2^r`, the entries of the power table; the coupling holds by definition (46_exp_windowed.md R197). -/
def Params.mAry (p : Params) : Nat := 2 ^ p.r

/-- `DMAX = ceil(K / r)`, the entries of the digit buffer (00_scope.md R7). -/
def Params.dmax (p : Params) : Nat := (p.K + p.r - 1) / p.r

/-- The legal ranges of 00_scope.md R7: `B` in 1..32, `W` in 1..512, `r` in 1..8. -/
abbrev Params.Legal (p : Params) : Prop :=
  (1 ≤ p.B ∧ p.B ≤ 32) ∧ (1 ≤ p.W ∧ p.W ≤ 512) ∧ (1 ≤ p.r ∧ p.r ≤ 8)

/-- Reference configuration RC0 of 95_test_vectors.md. -/
def rc0 : Params := ⟨4, 2, 2⟩

/-- Reference configuration RC1 of 95_test_vectors.md: the default "when none is given" (00_scope.md R7). -/
def rc1 : Params := ⟨32, 4, 2⟩

/-- Reference configuration RC2 of 95_test_vectors.md. -/
def rc2 : Params := ⟨32, 4, 3⟩

/-- FREE VALUE: word `j` of big register number `i` after the `k`-th host reset (10_state.md R40: "any value";
log 5). It has no body, so nothing can be proved of its value. -/
opaque freeWord : (k i j : Nat) → Nat

/-- FREE VALUE: digit buffer entry `i` after the `k`-th host reset (10_state.md R40; log 5). -/
opaque freeDigit : (k i : Nat) → Nat

/-- FREE VALUE: entry `j` of hidden register number `i` after the `k`-th host reset (10_state.md R40; log 5). -/
opaque freeHidden : (k i j : Nat) → Nat

end Sys2Proof.Config
end

