-- ==== Sys2Proof/Syntax.lean ====
section
/-! DEFINITION. Syntax.lean: the commands of CORE, one constructor per row of spec/opcode_table.json
(30_encoding.md R94), operands in assembler order (R99): destination, sources in field order, immediate last. -/

namespace Sys2Proof

/-- The 8 big registers; every number names one and none is special (10_state.md R21, R23). -/
inductive Reg where
  | x0 | x1 | x2 | x3 | x4 | x5 | x6 | x7
deriving DecidableEq, Repr

/-- The 20 commands (30_encoding.md R94). `xd` is the `rd` field, `xa`, `xm`, `xe`, `xb`, `xn` sources as R99 names
them; immediates are the unsigned number written (R93, range checked in WellFormed). -/
inductive Instr where
  /-- `CLR xd` (40_construct_compare_bits.md R120). -/
  | clr (xd : Reg)
  /-- `LDI xd, imm` (R121). -/
  | ldi (xd : Reg) (imm : Nat)
  /-- `MOV xd, xa` (R122). -/
  | mov (xd xa : Reg)
  /-- `CMP xa, xb` (R123). -/
  | cmp (xa xb : Reg)
  /-- `GETBIT xa, imm` (R124). -/
  | getbit (xa : Reg) (imm : Nat)
  /-- `NBITS xa` (R125). -/
  | nbits (xa : Reg)
  /-- `SHL1 xd, xa` (41_shifts.md R140). -/
  | shl1 (xd xa : Reg)
  /-- `SHR1 xd, xa` (R141). -/
  | shr1 (xd xa : Reg)
  /-- `BSHL xd, xa, imm` (R142). -/
  | bshl (xd xa : Reg) (imm : Nat)
  /-- `ADD xd, xa, xb` (42_add_sub.md R150). -/
  | add (xd xa xb : Reg)
  /-- `SUB xd, xa, xb` (R152). -/
  | sub (xd xa xb : Reg)
  /-- `MUL xd, xa, xb` (43_multiply.md R161). -/
  | mul (xd xa xb : Reg)
  /-- `MOD xd, xa, xn`: the modulus is in the `rs2` field (44_mod_mulmod.md R174, 30_encoding.md R95). -/
  | mod (xd xa xn : Reg)
  /-- `MULMOD xd, xa, xb, xn` (R177). -/
  | mulmod (xd xa xb xn : Reg)
  /-- `EXPB xd, xm, xe, xn` (45_exp_binary.md R186). -/
  | expb (xd xm xe xn : Reg)
  /-- `EXPBK xd, xm, xe, xn` (R187). -/
  | expbk (xd xm xe xn : Reg)
  /-- `EXPW xd, xm, xe, xn` (46_exp_windowed.md R199). -/
  | expw (xd xm xe xn : Reg)
  /-- `EXPWK xd, xm, xe, xn` (R200). -/
  | expwk (xd xm xe xn : Reg)
  /-- `DECOMP xe` (R196). -/
  | decomp (xe : Reg)
  /-- `BLAK xd, xa, xb, xn` (47_blakley.md R213). -/
  | blak (xd xa xb xn : Reg)
deriving DecidableEq, Repr

end Sys2Proof
end

