-- ==== Sys2Proof/WellFormed.lean ====
section
/-! DEFINITION. WellFormed.lean: the one check on a command's operands. Every register is a constructor, so no
register number can be wrong (30_encoding.md R93); "an immediate outside 0 to 65535 is an assembly error" (R99). -/

namespace Sys2Proof

/-- The immediate fits `imm16` (30_encoding.md R93, R99). -/
abbrev ImmOk (imm : Nat) : Prop := imm ≤ 65535

/-- A command that can be assembled (30_encoding.md R99). -/
def Instr.wf : Instr → Bool
  | .ldi _ imm => decide (ImmOk imm)
  | .getbit _ imm => decide (ImmOk imm)
  | .bshl _ _ imm => decide (ImmOk imm)
  | .clr _ => true
  | .mov _ _ => true
  | .cmp _ _ => true
  | .nbits _ => true
  | .shl1 _ _ => true
  | .shr1 _ _ => true
  | .add _ _ _ => true
  | .sub _ _ _ => true
  | .mul _ _ _ => true
  | .mod _ _ _ => true
  | .mulmod _ _ _ _ => true
  | .expb _ _ _ _ => true
  | .expbk _ _ _ _ => true
  | .expw _ _ _ _ => true
  | .expwk _ _ _ _ => true
  | .decomp _ => true
  | .blak _ _ _ _ => true

end Sys2Proof
end

