-- ==== Sys2Proof/Decode.lean ====
section
/-! DEFINITION. Decode.lean: command words to commands, total on all `2^32` words (30_encoding.md R90 to R96), the
opcode map as the table R94 prints it, the encoder from the same formats, and the assembler's text (R99, R100). -/

namespace Sys2Proof

/-! ## Fields (R91, R92): `cmd[hi:lo]` -/

/-- `op = cmd[31:24]`, in both formats (R90). -/
def opField (c : BusWord) : BitVec 8 := c.extractLsb' 24 8

/-- `rd = cmd[23:21]`. -/
def rdField (c : BusWord) : BitVec 3 := c.extractLsb' 21 3

/-- `rs1 = cmd[20:18]`. -/
def rs1Field (c : BusWord) : BitVec 3 := c.extractLsb' 18 3

/-- `rs2 = cmd[17:15]` of format R. -/
def rs2Field (c : BusWord) : BitVec 3 := c.extractLsb' 15 3

/-- `rs3 = cmd[14:12]` of format R. -/
def rs3Field (c : BusWord) : BitVec 3 := c.extractLsb' 12 3

/-- `cmd[11:0]` of format R, which must be 0. -/
def tailField (c : BusWord) : BitVec 12 := c.extractLsb' 0 12

/-- `cmd[17:16]` of format I, which must be 0. -/
def gapField (c : BusWord) : BitVec 2 := c.extractLsb' 16 2

/-- `imm16 = cmd[15:0]` of format I: one contiguous unsigned field (R93). -/
def immField (c : BusWord) : Nat := (c.extractLsb' 0 16).toNat

/-- The number in a register field (R93): `x0` is 0, …, `x7` is 7. -/
def Reg.num : Reg → Nat
  | .x0 => 0 | .x1 => 1 | .x2 => 2 | .x3 => 3 | .x4 => 4 | .x5 => 5 | .x6 => 6 | .x7 => 7

/-- The register a 3-bit field names; "all 8 values name a register" (R93). -/
def Reg.ofField (f : BitVec 3) : Reg :=
  match f.toNat with
  | 0 => .x0 | 1 => .x1 | 2 => .x2 | 3 => .x3 | 4 => .x4 | 5 => .x5 | 6 => .x6 | _ => .x7

/-! ## Decoding (R94, R96) -/

/-- Why a word is illegal (R96): its opcode is none of the 20, or a bit that must be 0 is 1. -/
inductive DecodeError where
  | unassignedOpcode
  | unusedFieldNotZero
deriving DecidableEq, Repr

/-- The command, provided the fields it does not use are zero (R95, R96). -/
def whenUnusedZero (zero : Bool) (i : Instr) : Except DecodeError Instr :=
  if zero then .ok i else .error .unusedFieldNotZero

/-- Decode a command word: one of the 20 commands with definite operands, or illegal (R94, R96). -/
def decode (c : BusWord) : Except DecodeError Instr :=
  let d := Reg.ofField (rdField c)
  let a := Reg.ofField (rs1Field c)
  let b := Reg.ofField (rs2Field c)
  let n := Reg.ofField (rs3Field c)
  let noRd := rdField c == 0
  let noRs1 := rs1Field c == 0
  let noRs2 := rs2Field c == 0
  let noRs3 := rs3Field c == 0 && tailField c == 0
  let tail := tailField c == 0
  let gap := gapField c == 0
  match (opField c).toNat with
  | 0x01 => whenUnusedZero (noRs1 && noRs2 && noRs3) (.clr d)
  | 0x02 => whenUnusedZero (noRs1 && gap) (.ldi d (immField c))
  | 0x03 => whenUnusedZero (noRs2 && noRs3) (.mov d a)
  | 0x10 => whenUnusedZero (noRd && noRs3) (.cmp a b)
  | 0x11 => whenUnusedZero (noRd && gap) (.getbit a (immField c))
  | 0x12 => whenUnusedZero (noRd && noRs2 && noRs3) (.nbits a)
  | 0x20 => whenUnusedZero (noRs2 && noRs3) (.shl1 d a)
  | 0x21 => whenUnusedZero (noRs2 && noRs3) (.shr1 d a)
  | 0x22 => whenUnusedZero gap (.bshl d a (immField c))
  | 0x30 => whenUnusedZero noRs3 (.add d a b)
  | 0x31 => whenUnusedZero noRs3 (.sub d a b)
  | 0x40 => whenUnusedZero noRs3 (.mul d a b)
  | 0x50 => whenUnusedZero noRs3 (.mod d a b)
  | 0x51 => whenUnusedZero tail (.mulmod d a b n)
  | 0x60 => whenUnusedZero tail (.expb d a b n)
  | 0x61 => whenUnusedZero tail (.expbk d a b n)
  | 0x70 => whenUnusedZero tail (.expw d a b n)
  | 0x71 => whenUnusedZero tail (.expwk d a b n)
  | 0x72 => whenUnusedZero (noRd && noRs2 && noRs3) (.decomp a)
  | 0x80 => whenUnusedZero tail (.blak d a b n)
  | _ => .error .unassignedOpcode

/-- The command the decoder reads from a table word: a command is one 32-bit word (R90), so bits above `nbits`
are 0 and a longer word is no command. -/
def decodeTableWord (nbits w : Nat) : Option Instr :=
  let v := w % 2 ^ nbits
  if v < 2 ^ 32 then
    match decode (BitVec.ofNat 32 v) with
    | .ok i => some i
    | .error _ => none
  else none

/-! ## The opcode map as R94 prints it -/

/-- One row of the table of R94: a mnemonic with its `match` and `mask` columns. -/
structure OpcodeRow where
  mnemonic : String
  pattern : BusWord
  mask : BusWord
deriving DecidableEq, Repr

/-- "A command word `c` is the command of a row exactly when `c AND mask = match`" (R94). -/
abbrev OpcodeRow.Matches (row : OpcodeRow) (c : BusWord) : Prop := c &&& row.mask = row.pattern

/-- Rows of groups 0x0_ to 0x2_ of R94. -/
def opcodeRowsLow : List OpcodeRow :=
  [⟨"CLR", 0x01000000, 0xFF1FFFFF⟩, ⟨"LDI", 0x02000000, 0xFF1F0000⟩, ⟨"MOV", 0x03000000, 0xFF03FFFF⟩,
   ⟨"CMP", 0x10000000, 0xFFE07FFF⟩, ⟨"GETBIT", 0x11000000, 0xFFE30000⟩, ⟨"NBITS", 0x12000000, 0xFFE3FFFF⟩,
   ⟨"SHL1", 0x20000000, 0xFF03FFFF⟩, ⟨"SHR1", 0x21000000, 0xFF03FFFF⟩, ⟨"BSHL", 0x22000000, 0xFF030000⟩]

/-- Rows of groups 0x3_ to 0x8_ of R94. -/
def opcodeRowsHigh : List OpcodeRow :=
  [⟨"ADD", 0x30000000, 0xFF007FFF⟩, ⟨"SUB", 0x31000000, 0xFF007FFF⟩, ⟨"MUL", 0x40000000, 0xFF007FFF⟩,
   ⟨"MOD", 0x50000000, 0xFF007FFF⟩, ⟨"MULMOD", 0x51000000, 0xFF000FFF⟩, ⟨"EXPB", 0x60000000, 0xFF000FFF⟩,
   ⟨"EXPBK", 0x61000000, 0xFF000FFF⟩, ⟨"EXPW", 0x70000000, 0xFF000FFF⟩, ⟨"EXPWK", 0x71000000, 0xFF000FFF⟩,
   ⟨"DECOMP", 0x72000000, 0xFFE3FFFF⟩, ⟨"BLAK", 0x80000000, 0xFF000FFF⟩]

/-- The 20 rows of R94. -/
def opcodeTable : List OpcodeRow := opcodeRowsLow ++ opcodeRowsHigh

/-- The mnemonic of a command, as R94 spells it. -/
def Instr.mnemonic : Instr → String
  | .clr _ => "CLR"
  | .ldi _ _ => "LDI"
  | .mov _ _ => "MOV"
  | .cmp _ _ => "CMP"
  | .getbit _ _ => "GETBIT"
  | .nbits _ => "NBITS"
  | .shl1 _ _ => "SHL1"
  | .shr1 _ _ => "SHR1"
  | .bshl _ _ _ => "BSHL"
  | .add _ _ _ => "ADD"
  | .sub _ _ _ => "SUB"
  | .mul _ _ _ => "MUL"
  | .mod _ _ _ => "MOD"
  | .mulmod _ _ _ _ => "MULMOD"
  | .expb _ _ _ _ => "EXPB"
  | .expbk _ _ _ _ => "EXPBK"
  | .expw _ _ _ _ => "EXPW"
  | .expwk _ _ _ _ => "EXPWK"
  | .decomp _ => "DECOMP"
  | .blak _ _ _ _ => "BLAK"

/-! ## Encoding (R91, R92, R102) -/

/-- A format R word (R91): opcode, `rd`, `rs1`, `rs2`, `rs3`, zeros. -/
def formatR (op d a b n : Nat) : BusWord :=
  BitVec.ofNat 32 (op * 2 ^ 24 + d * 2 ^ 21 + a * 2 ^ 18 + b * 2 ^ 15 + n * 2 ^ 12)

/-- A format I word (R92): opcode, `rd`, `rs1`, zeros, `imm16`. -/
def formatI (op d a imm : Nat) : BusWord :=
  BitVec.ofNat 32 (op * 2 ^ 24 + d * 2 ^ 21 + a * 2 ^ 18 + imm)

/-- The word of a well-formed command; fields it does not use are 0 (R94, R95). -/
def encode : Instr → BusWord
  | .clr d => formatR 0x01 d.num 0 0 0
  | .ldi d imm => formatI 0x02 d.num 0 imm
  | .mov d a => formatR 0x03 d.num a.num 0 0
  | .cmp a b => formatR 0x10 0 a.num b.num 0
  | .getbit a imm => formatI 0x11 0 a.num imm
  | .nbits a => formatR 0x12 0 a.num 0 0
  | .shl1 d a => formatR 0x20 d.num a.num 0 0
  | .shr1 d a => formatR 0x21 d.num a.num 0 0
  | .bshl d a imm => formatI 0x22 d.num a.num imm
  | .add d a b => formatR 0x30 d.num a.num b.num 0
  | .sub d a b => formatR 0x31 d.num a.num b.num 0
  | .mul d a b => formatR 0x40 d.num a.num b.num 0
  | .mod d a n => formatR 0x50 d.num a.num n.num 0
  | .mulmod d a b n => formatR 0x51 d.num a.num b.num n.num
  | .expb d m e n => formatR 0x60 d.num m.num e.num n.num
  | .expbk d m e n => formatR 0x61 d.num m.num e.num n.num
  | .expw d m e n => formatR 0x70 d.num m.num e.num n.num
  | .expwk d m e n => formatR 0x71 d.num m.num e.num n.num
  | .decomp e => formatR 0x72 0 e.num 0 0
  | .blak d a b n => formatR 0x80 d.num a.num b.num n.num

/-! ## The assembler's text (R99) and pseudo-commands (R100) -/

/-- A register operand, written `x0` to `x7` (R99). -/
def Reg.asm : Reg → String
  | .x0 => "x0" | .x1 => "x1" | .x2 => "x2" | .x3 => "x3" | .x4 => "x4" | .x5 => "x5" | .x6 => "x6" | .x7 => "x7"

/-- The operands of a command in the order R99 writes them. -/
def Instr.operandTexts : Instr → List String
  | .clr d => [d.asm]
  | .ldi d imm => [d.asm, toString imm]
  | .mov d a => [d.asm, a.asm]
  | .cmp a b => [a.asm, b.asm]
  | .getbit a imm => [a.asm, toString imm]
  | .nbits a => [a.asm]
  | .shl1 d a => [d.asm, a.asm]
  | .shr1 d a => [d.asm, a.asm]
  | .bshl d a imm => [d.asm, a.asm, toString imm]
  | .add d a b => [d.asm, a.asm, b.asm]
  | .sub d a b => [d.asm, a.asm, b.asm]
  | .mul d a b => [d.asm, a.asm, b.asm]
  | .mod d a n => [d.asm, a.asm, n.asm]
  | .mulmod d a b n => [d.asm, a.asm, b.asm, n.asm]
  | .expb d m e n => [d.asm, m.asm, e.asm, n.asm]
  | .expbk d m e n => [d.asm, m.asm, e.asm, n.asm]
  | .expw d m e n => [d.asm, m.asm, e.asm, n.asm]
  | .expwk d m e n => [d.asm, m.asm, e.asm, n.asm]
  | .decomp e => [e.asm]
  | .blak d a b n => [d.asm, a.asm, b.asm, n.asm]

/-- `MNEMONIC operand, operand, ...`, the immediate in decimal (R99). -/
def Instr.asm (i : Instr) : String := i.mnemonic ++ " " ++ String.intercalate ", " i.operandTexts

/-- Pseudo-command `SHL1 xd` (R100). -/
def shl1InPlace (d : Reg) : Instr := .shl1 d d

/-- Pseudo-command `SHR1 xd` (R100). -/
def shr1InPlace (d : Reg) : Instr := .shr1 d d

/-- Pseudo-command `BSHL xd, imm` (R100). -/
def bshlInPlace (d : Reg) (imm : Nat) : Instr := .bshl d d imm

end Sys2Proof
end

