-- ==== Sys2Proof/Machine/Operands.lean ====
section
/-! DEFINITION. Operands.lean: what an operand is, without the state: word arrays and their values (00_scope.md R11),
the notation of R10 and R12, and the scalar operand forms of the commands (the immediate, the digit count). -/

namespace Sys2Proof.Machine

open Sys2Proof.Config (Params)

/-- The words of a value, word 0 first: "little-endian (index 0 = least significant)" (00_scope.md R11). -/
abbrev Words := List Nat

/-- `trunc_N(v) = v mod 2^N` (00_scope.md R10). -/
def trunc (N v : Nat) : Nat := v % 2 ^ N

/-- The semantic value `Σ word[j]·2^(B·j)` (00_scope.md R11). -/
def val (B : Nat) : Words → Nat
  | [] => 0
  | w :: ws => w + 2 ^ B * val B ws

/-- `N` words with `word[j] = (v div 2^(B*j)) mod 2^B` (00_scope.md R11): `big(v)` when `N = W`. -/
def big (B : Nat) : (N : Nat) → (v : Nat) → Words
  | 0, _ => []
  | N + 1, v => trunc B v :: big B N (v / 2 ^ B)

/-- Bit `i` of `v` (00_scope.md R10). -/
def bit (v i : Nat) : Nat := (v / 2 ^ i) % 2

/-- `nbits(v)`: "0 if `v = 0`, else 1 plus the index of the highest set bit" (00_scope.md R12). -/
def nbits (v : Nat) : Nat := if v = 0 then 0 else Nat.log2 v + 1

/-- Word `j` of an array; the callers keep `j` in range. -/
def wordAt (ws : Words) (j : Nat) : Nat := ws.getD j 0

/-- `imm16` taken as the value to construct, `imm16 mod 2^K` (40_construct_compare_bits.md R121). -/
def immValue (p : Params) (imm : Nat) : Nat := trunc p.K imm

/-- The digit count `ceil(k / r)` of a `k`-bit exponent (46_exp_windowed.md R195). -/
def digitCount (p : Params) (E : Nat) : Nat := (nbits E + p.r - 1) / p.r

/-- Digit `i` of an exponent: its bits `[i·r, i·r + r)` (46_exp_windowed.md R195). -/
def digit (p : Params) (E i : Nat) : Nat := trunc p.r (E / 2 ^ (i * p.r))

/-- The whole digit array `d[0 .. DMAX-1]` (46_exp_windowed.md R195). -/
def digits (p : Params) (E : Nat) : List Nat := (List.range p.dmax).map (digit p E)

end Sys2Proof.Machine
end

