-- ==== Sys2Proof/Machine/State.lean ====
section
/-! DEFINITION. State.lean: everything the spec gives the machine (10_state.md), as plain data, and the state after
reset (10_state.md R40, 70_reset_and_hazards.md R250). -/

namespace Sys2Proof.Machine

open Sys2Proof.Config (Params)

/-- The 8 big registers (10_state.md R21), each a word array. -/
structure Regs where
  x0 : Words
  x1 : Words
  x2 : Words
  x3 : Words
  x4 : Words
  x5 : Words
  x6 : Words
  x7 : Words
deriving DecidableEq, Repr

/-- The fields of STATUS (10_state.md R26). Its reserved bits read as 0 and hold nothing. -/
structure Status where
  /-- 1 from issue to completion. -/
  busy : Bool
  /-- A command has completed and none has been issued since. -/
  done : Bool
  /-- The last completed command ended with an error. -/
  err : Bool
  /-- Capacity-exceeded signal of the last ADD or MUL. -/
  ovf : Bool
  /-- Sticky: the host made an access the rules give no meaning. -/
  haz : Bool
  /-- Error code of the last completed command. -/
  errcode : BitVec 4
deriving DecidableEq, Repr

/-- The working state of the datapaths (10_state.md R35), which no host transaction reads. `P` is the product's
word array; the other registers are held by value. -/
structure Hidden where
  /-- P, product scratch, `2*W` words. -/
  p : Words
  /-- REM, running remainder of the reduction, `2*W` words. -/
  rem : Nat
  /-- SM, shifted modulus of the reduction, `2*K + 1` bits. -/
  sm : Nat
  /-- KCNT, shift count of the reduction. -/
  kcnt : Nat
  /-- ACC, accumulator of the exponentiation methods. -/
  acc : Nat
  /-- TBL, power table of the windowed method. -/
  tbl : List Nat
  /-- RB, remainder of the Blakley multiplier, `K + 2` bits. -/
  rb : Nat
  /-- IDX, index of the running loop. -/
  idx : Nat
  /-- OPA, copy of the `rs1` operand latched at issue. -/
  opa : Nat
  /-- OPB, copy of the `rs2` operand latched at issue. -/
  opb : Nat
  /-- OPN, copy of the `rs3` operand latched at issue. -/
  opn : Nat
deriving DecidableEq, Repr

/-- What the host can do next (20_memory.md R61, R62; 70_reset_and_hazards.md R250; 30_encoding.md R101). -/
inductive HostAction where
  /-- `rd ADDR`: `MemRead(ADDR, 1)`. -/
  | rd (addr : HostAddr)
  /-- `wr ADDR, VALUE`: `MemWrite(ADDR, 1, VALUE)`. -/
  | wr (addr : HostAddr) (value : BusWord)
  /-- `wait`: read STATUS until bit 0 of the value read is 0. -/
  | wait
  /-- Assert reset. -/
  | reset
deriving DecidableEq, Repr

/-- Who makes the next step in the one total order of 20_memory.md R70 (10_state.md R20). -/
inductive Agent where
  | host
  | core
deriving DecidableEq, Repr

/-- The machine with the host that drives it. `script`, `sched`, `replies` and `freeIx` are the model's own fields
(logs 5, 7, 8, 13); everything else is the spec's. -/
structure State where
  /-- `B`, `W`, `r`, read back as CFG (10_state.md R33); no step changes them. -/
  cfg : Params
  /-- The big registers (10_state.md R21). -/
  x : Regs
  /-- CMD, the last issued command word (10_state.md R25). -/
  cmd : BusWord
  /-- STATUS (10_state.md R26). -/
  status : Status
  /-- SRES, the scalar result (10_state.md R32). -/
  sres : BusWord
  /-- DIG, the digit buffer, `DMAX` entries (10_state.md R34). -/
  dig : List Nat
  /-- The hidden datapath registers (10_state.md R35). -/
  hid : Hidden
  /-- The host's remaining actions, oldest first. -/
  script : List HostAction
  /-- Whose turn is next; once used up, a busy core goes first (10_state.md R45). -/
  sched : List Agent
  /-- The values host reads have returned, oldest first. -/
  replies : List BusWord
  /-- How many host resets have drawn free values. -/
  freeIx : Nat
deriving DecidableEq, Repr

/-- Reasons the machine stops. -/
inductive Fault where
  /-- Raised by `step` alone, on a state whose `B`, `W`, `r` lie outside the legal ranges of 00_scope.md R7: no such
  CORE exists (log 14). Safe: every state of a CORE has legal parameters and keeps them. -/
  | illegalConfiguration
deriving DecidableEq, Repr

/-- Reasons an instruction has no meaning. -/
inductive Refusal where
  /-- Raised by an arm of `exec` for an instruction not modelled yet; no arm does. Safe: it stops. -/
  | notModelled (mnemonic : String)
deriving DecidableEq, Repr

/-- STATUS after reset: 0x0000_0000 (10_state.md R40). -/
def Status.reset : Status :=
  { busy := false, done := false, err := false, ovf := false, haz := false, errcode := 0 }

/-- The state after reset (10_state.md R40) of a build `p`: CMD, STATUS and SRES are 0; the big registers, DIG and the
hidden registers hold ANY values `x`, `dig`, `hid`; the host has done nothing yet. -/
def State.resetWith (p : Params) (x : Regs) (dig : List Nat) (hid : Hidden) : State :=
  { cfg := p, x := x, cmd := 0, status := Status.reset, sres := 0, dig := dig, hid := hid
    script := [], sched := [], replies := [], freeIx := 0 }

/-- DESIGN CHOICE (log 2): the value State.reset names for every big register. -/
def Regs.atReset (p : Params) : Regs :=
  let v := big p.B p.W 0xA5
  ⟨v, v, v, v, v, v, v, v⟩

/-- DESIGN CHOICE (log 3): the entries State.reset names for DIG. -/
def digAtReset (p : Params) : List Nat := List.replicate p.dmax 1

/-- DESIGN CHOICE (log 4): the values State.reset names for the hidden registers. -/
def Hidden.atReset (p : Params) : Hidden :=
  { p := List.replicate (2 * p.W) 0, rem := 0, sm := 0, kcnt := 0, acc := 0, tbl := List.replicate p.mAry 0
    rb := 0, idx := 0, opa := 0, opb := 0, opn := 0 }

/-- The machine right after reset, as build RC1, the default of 00_scope.md R7 (log 1). -/
def State.reset : State :=
  State.resetWith Config.rc1 (Regs.atReset Config.rc1) (digAtReset Config.rc1) (Hidden.atReset Config.rc1)

end Sys2Proof.Machine
end

