-- ==== Sys2Proof/Machine/Flags.lean ====
section
/-! DEFINITION. Flags.lean: the one condition flag OVF (10_state.md R30), the error codes (60_exceptions.md R221),
the scalar encodings of SRES (10_state.md R32) and the STATUS and CFG words the host reads (R26, R33). -/

namespace Sys2Proof.Machine

open Sys2Proof.Config (Params)

/-- OVF of an addition: the carry out of the top word (42_add_sub.md R150). -/
def carryFlag (c : Nat) : Bool := c != 0

/-- OVF of a multiplication: the upper words "are not all 0" (43_multiply.md R161). -/
def upperNotZero (W : Nat) (P : Words) : Bool := (P.drop W).any (· != 0)

/-- The sign of a comparison as `sext_32` of -1, 0 or +1 (10_state.md R32, 40_construct_compare_bits.md R123). -/
def signWord (s : Int) : BusWord := BitVec.ofInt 32 s

/-- A count or a bit in SRES, zero-extended (10_state.md R32). -/
def countWord (n : Nat) : BusWord := BitVec.ofNat 32 n

/-- The error causes of 60_exceptions.md R221. -/
inductive CmdError where
  | illegalCommand
  | underflow
  | degenerateModulus
deriving DecidableEq, Repr

/-- ERRCODE of an error (60_exceptions.md R221). -/
def CmdError.code : CmdError → BitVec 4
  | .illegalCommand => 1
  | .underflow => 2
  | .degenerateModulus => 3

/-- The STATUS word (10_state.md R26): BUSY 0, DONE 1, ERR 2, OVF 3, HAZ 4, ERRCODE 11:8, reserved bits 0. -/
def Status.word (t : Status) : BusWord :=
  BitVec.ofNat 32 (t.busy.toNat + t.done.toNat * 2 + t.err.toNat * 4 + t.ovf.toNat * 8 + t.haz.toNat * 16
    + t.errcode.toNat * 256)

/-- The CFG word (10_state.md R33): `B` in 7:0, `r` in 15:8, `W` in 31:16. -/
def cfgWord (p : Params) : BusWord := BitVec.ofNat 32 (p.B + p.r * 2 ^ 8 + p.W * 2 ^ 16)

/-- STATUS after a command that succeeded (10_state.md R43). -/
def Status.completed (t : Status) : Status :=
  { t with busy := false, done := true, err := false, errcode := 0 }

/-- STATUS after a command that ended in an error (10_state.md R43, 60_exceptions.md R228). -/
def Status.failed (t : Status) (e : CmdError) : Status :=
  { t with busy := false, done := true, err := true, errcode := e.code }

/-- STATUS after an issue (10_state.md R42). -/
def Status.issued (t : Status) : Status :=
  { t with busy := true, done := false, err := false, errcode := 0 }

end Sys2Proof.Machine
end

