-- ==== Sys2Proof/Machine/Ops.lean ====
section
/-! DEFINITION. Ops.lean: the named operations over the state that every command and host transaction is made of:
register reads and writes, completion with and without an error, issue. -/

namespace Sys2Proof.Machine

/-- An outcome of the machine. -/
abbrev Result := Host.Outcome State Fault Refusal

/-! ## Registers -/

/-- The words of big register `i` (10_state.md R21). -/
def Regs.get (x : Regs) : Reg → Words
  | .x0 => x.x0 | .x1 => x.x1 | .x2 => x.x2 | .x3 => x.x3
  | .x4 => x.x4 | .x5 => x.x5 | .x6 => x.x6 | .x7 => x.x7

/-- Big register `i` replaced; "writing one register never changes another" (10_state.md R23). -/
def Regs.set (x : Regs) (i : Reg) (ws : Words) : Regs :=
  match i with
  | .x0 => { x with x0 := ws } | .x1 => { x with x1 := ws } | .x2 => { x with x2 := ws } | .x3 => { x with x3 := ws }
  | .x4 => { x with x4 := ws } | .x5 => { x with x5 := ws } | .x6 => { x with x6 := ws } | .x7 => { x with x7 := ws }

/-- The eight word arrays, `x0` first. -/
def Regs.toList (x : Regs) : List Words := [x.x0, x.x1, x.x2, x.x3, x.x4, x.x5, x.x6, x.x7]

/-- `x[i]`, all `W` words (00_scope.md R12). -/
def State.words (s : State) (i : Reg) : Words := s.x.get i

/-- `val(x[i])` (00_scope.md R11). -/
def State.value (s : State) (i : Reg) : Nat := val s.cfg.B (s.words i)

/-- Write of a whole word array to `x[i]`. -/
def State.setWords (s : State) (i : Reg) (ws : Words) : State := { s with x := s.x.set i ws }

/-- `x[i] <- v`: write of `big(v)` (00_scope.md R12). -/
def State.setValue (s : State) (i : Reg) (v : Nat) : State := s.setWords i (big s.cfg.B s.cfg.W v)

/-- `SRES <- v` (00_scope.md R12). -/
def State.setSres (s : State) (v : BusWord) : State := { s with sres := v }

/-- `OVF <- v` (00_scope.md R12). -/
def State.setOvf (s : State) (v : Bool) : State := { s with status := { s.status with ovf := v } }

/-- `DIG[i] <- d[i]` for all `i` (10_state.md R34). -/
def State.setDig (s : State) (d : List Nat) : State := { s with dig := d }

/-- The hidden registers as a datapath leaves them (10_state.md R35; log 6). -/
def State.setHidden (s : State) (h : Hidden) : State := { s with hid := h }

/-! ## Completion (10_state.md R43) -/

/-- A command that succeeded: after its writes, `ERR <- 0, ERRCODE <- 0, BUSY <- 0, DONE <- 1` (10_state.md R43). -/
def succeed (s : State) : Result := .next { s with status := s.status.completed }

/-- TAKING AN ERROR, the one exceptional event of CORE (60_exceptions.md R220, R228): `ERR <- 1, ERRCODE <- code,
BUSY <- 0, DONE <- 1` "and nothing else"; nothing is saved and control goes nowhere. -/
def raiseError (e : CmdError) (s : State) : Result := .next { s with status := s.status.failed e }

/-- Entry validation of the seven modular commands: "test their modulus register for zero before anything else"
(60_exceptions.md R224). -/
def withModulus (n : Nat) (s : State) (go : Result) : Result :=
  if n = 0 then raiseError .degenerateModulus s else go

/-! ## Issue (10_state.md R42): also all there is of a return from an error, since "the issue clears ERR and ERRCODE"
(60_exceptions.md R230). -/

/-- The operand copies latched at issue from the registers the fields `rs1`, `rs2`, `rs3` name (10_state.md R35,
70_reset_and_hazards.md R262). -/
def State.latch (s : State) (c : BusWord) : Hidden :=
  { s.hid with
    opa := s.value (.ofField (rs1Field c))
    opb := s.value (.ofField (rs2Field c))
    opn := s.value (.ofField (rs3Field c)) }

/-- Issue of a command word: `CMD <- c; BUSY <- 1; DONE <- 0; ERR <- 0; ERRCODE <- 0` (10_state.md R42). The word is
stored "as written, legal or not" (R25). -/
def State.issue (s : State) (c : BusWord) : State :=
  { s with cmd := c, status := s.status.issued, hid := s.latch c }

/-- The command of the word in CMD: "the command executed is the word the issuing write carried" (20_memory.md R73). -/
def State.fetchCommand (s : State) : Except DecodeError Instr := decode s.cmd

end Sys2Proof.Machine
end

