-- ==== Sys2Proof/Machine/Compare.lean ====
section
/-! DEFINITION. Compare.lean: CMP, GETBIT, NBITS (40_construct_compare_bits.md R123 to R126). -/

namespace Sys2Proof.Machine

open Sys2Proof.Config (Params)

/-- `Cmp` on word arrays (R123, R126): from the most significant word down, the sign of the first differing word, the
words compared as unsigned; 0 when all are equal. The tail holds the more significant words, so it decides first. -/
def cmpWords : Words → Words → Int
  | a :: as, b :: bs =>
    let upper := cmpWords as bs
    if upper ≠ 0 then upper else if a = b then 0 else if a > b then 1 else -1
  | _, _ => 0

/-- Bit `i` of a register: bit `i mod B` of word `i div B`, and 0 for `i >= K` (R124). -/
def bitOfWords (p : Params) (v : Words) (i : Nat) : Nat :=
  if i < p.K then bit (wordAt v (i / p.B)) (i % p.B) else 0

/-- CMP xa, xb (R123): the sign of `val(a) - val(b)` in SRES. -/
def execCmp (xa xb : Reg) (s : State) : Result :=
  succeed (s.setSres (signWord (cmpWords (s.words xa) (s.words xb))))

/-- GETBIT xa, imm (R124): bit `imm16` in SRES. -/
def execGetbit (xa : Reg) (imm : Nat) (s : State) : Result :=
  succeed (s.setSres (countWord (bitOfWords s.cfg (s.words xa) imm)))

/-- NBITS xa (R125): `SRES <- nbits(val(x[rs1]))`. -/
def execNbits (xa : Reg) (s : State) : Result :=
  succeed (s.setSres (countWord (nbits (s.value xa))))

end Sys2Proof.Machine
end

