-- ==== Sys2Proof/Machine/AddSub.lean ====
section
/-! DEFINITION. AddSub.lean: the word-level adder and subtractor, ADD and SUB (42_add_sub.md R150 to R153). -/

namespace Sys2Proof.Machine

/-- `AddW` (R151): the words of the sum and the carry out, word by word, `c` the carry in. -/
def addWords (B : Nat) : Words → Words → (c : Nat) → Words × Nat
  | a :: as, b :: bs, c =>
    let t := a + b + c
    let rest := addWords B as bs (t / 2 ^ B)
    (trunc B t :: rest.1, rest.2)
  | _, _, c => ([], c)

/-- `SubW` (R153): the words of the difference and the borrow out, `w` the borrow in. -/
def subWords (B : Nat) : Words → Words → (w : Nat) → Words × Nat
  | a :: as, b :: bs, w =>
    let t : Int := (a : Int) - b - w
    let below := decide (t < 0)
    let rest := subWords B as bs below.toNat
    ((if below then t + 2 ^ B else t).toNat :: rest.1, rest.2)
  | _, _, w => ([], w)

/-- ADD xd, xa, xb (R150): `(s, c) = AddW(x[rs1], x[rs2])`, `x[rd] <- s`, `OVF <- c`. -/
def execAdd (xd xa xb : Reg) (s : State) : Result :=
  let r := addWords s.cfg.B (s.words xa) (s.words xb) 0
  succeed ((s.setWords xd r.1).setOvf (carryFlag r.2))

/-- SUB xd, xa, xb (R152): Underflow when `Cmp(a, b) < 0`, checked at entry; else `x[rd] <- SubW(a, b)`. -/
def execSub (xd xa xb : Reg) (s : State) : Result :=
  if cmpWords (s.words xa) (s.words xb) < 0 then raiseError .underflow s
  else succeed (s.setWords xd (subWords s.cfg.B (s.words xa) (s.words xb) 0).1)

end Sys2Proof.Machine
end

