-- ==== Sys2Proof/Machine/Blakley.lean ====
section
/-! DEFINITION. Blakley.lean: the shift-add modular multiplier, BLAK (47_blakley.md R211 to R214). -/

namespace Sys2Proof.Machine

open Sys2Proof.Config (Params)

/-- `R` of R211 after the shift and the addition of the step at bit `i`, in RB's `K + 2` bits (R212). -/
def blakleyShiftAdd (p : Params) (a b i R : Nat) : Nat :=
  let shifted := trunc (p.K + 2) (R * 2)
  if bit a i = 1 then trunc (p.K + 2) (shifted + b) else shifted

/-- The step of R211 at bit `i`. `while R >= n: R = R - n` leaves the remainder of `R` by `n` (log 12). -/
def blakleyStep (p : Params) (a b n i R : Nat) : Nat := blakleyShiftAdd p a b i R % n

/-- The steps of R211 at bits `i - 1` down to 0. -/
def blakleyLoop (p : Params) (a b n : Nat) : (i R : Nat) → Nat
  | 0, R => R
  | i + 1, R => blakleyLoop p a b n i (blakleyStep p a b n i R)

/-- `Blakley(a, b, n)` (R211): from `R = 0`, "`K = B*W` steps, always". -/
def blakley (p : Params) (n a b : Nat) : Nat := blakleyLoop p a b n p.K 0

/-- `while R >= n: R = R - n` (R211) run for at most `fuel` subtractions: the final `R` and how many were made. -/
def subtractWhile (n : Nat) : (fuel R : Nat) → Nat × Nat
  | 0, R => (R, 0)
  | fuel + 1, R =>
    if n ≤ R then
      let rest := subtractWhile n fuel (R - n)
      (rest.1, rest.2 + 1)
    else (R, 0)

/-- R211 with its inner loop subtraction by subtraction, each step allowed `2 + (b div n)` of them (R214). -/
def blakleyBySubtraction (p : Params) (a b n : Nat) : (i R : Nat) → Nat
  | 0, R => R
  | i + 1, R =>
    blakleyBySubtraction p a b n i (subtractWhile n (2 + b / n) (blakleyShiftAdd p a b i R)).1

/-- The hidden registers after one run of the Blakley multiplier. -/
def Hidden.afterBlakley (p : Params) (n a b : Nat) (h : Hidden) : Hidden :=
  { h with rb := blakley p n a b, idx := 0 }

/-- BLAK xd, xa, xb, xn (R213): `a` is the operand whose bits are consumed, `b` the operand added. -/
def execBlak (xd xa xb xn : Reg) (s : State) : Result :=
  let a := s.value xa
  let b := s.value xb
  let n := s.value xn
  withModulus n s
    (succeed ((s.setValue xd (blakley s.cfg n a b)).setHidden (s.hid.afterBlakley s.cfg n a b)))

end Sys2Proof.Machine
end

