-- ==== Sys2Proof/Machine/Construct.lean ====
section
/-! DEFINITION. Construct.lean: CLR, LDI, MOV (40_construct_compare_bits.md R120 to R122). -/

namespace Sys2Proof.Machine

/-- CLR xd (R120): `x[rd] <- 0`. -/
def execClr (xd : Reg) (s : State) : Result := succeed (s.setValue xd 0)

/-- LDI xd, imm (R121): `x[rd] <- imm16 mod 2^K`. -/
def execLdi (xd : Reg) (imm : Nat) (s : State) : Result := succeed (s.setValue xd (immValue s.cfg imm))

/-- MOV xd, xa (R122): `x[rd] <- x[rs1]`, all `W` words. -/
def execMov (xd xa : Reg) (s : State) : Result := succeed (s.setWords xd (s.words xa))

end Sys2Proof.Machine
end

