-- ==== Sys2Proof/Machine/Multiply.lean ====
section
/-! DEFINITION. Multiply.lean: the schoolbook multiplier with its `2*W`-word product, MUL (43_multiply.md R160 to
R165). -/

namespace Sys2Proof.Machine

/-- One row of R160: `ai` times the words of `b` added into the scratch words from the row's own position on, the carry
running along; the last carry is stored in the word after the row (`P.word[i+W] = c`). -/
def mulRow (B ai : Nat) : (P b : Words) → (c : Nat) → Words
  | p :: P, b :: bs, c =>
    let t := p + ai * b + c
    trunc B t :: mulRow B ai P bs (t / 2 ^ B)
  | _ :: P, [], c => c :: P
  | [], _, _ => []

/-- The rows of R160, one for each word of `a`; after a row its lowest scratch word is final. -/
def mulRows (B : Nat) : (a b P : Words) → Words
  | [], _, P => P
  | ai :: as, b, P =>
    match mulRow B ai P b 0 with
    | p :: P' => p :: mulRows B as b P'
    | [] => []

/-- `Mul(a, b)` (R160): the product in `2*W` words, formed in full before anything is dropped (R165). -/
def mulWords (B W : Nat) (a b : Words) : Words := mulRows B a b (List.replicate (2 * W) 0)

/-- MUL xd, xa, xb (R161): the low `W` words to `x[rd]`, `OVF` when the upper `W` words are not all 0. -/
def execMul (xd xa xb : Reg) (s : State) : Result :=
  let P := mulWords s.cfg.B s.cfg.W (s.words xa) (s.words xb)
  succeed (((s.setWords xd (P.take s.cfg.W)).setOvf (upperNotZero s.cfg.W P)).setHidden { s.hid with p := P })

end Sys2Proof.Machine
end

