-- ==== Sys2Proof/Machine/Reduce.lean ====
section
/-! DEFINITION. Reduce.lean: modular reduction and modular multiplication, MOD and MULMOD (44_mod_mulmod.md R170 to
R177). The value is R170's; R171's loop at R173's widths is what the unit's hidden registers hold. -/

namespace Sys2Proof.Machine

open Sys2Proof.Config (Params)

/-- `Mod(a, n)` (R170): "the remainder `a mod n`"; "a model uses rule R170" (R172; log 11). The callers check `n ≠ 0`
first. -/
def modValue (a n : Nat) : Nat := a % n

/-- The registers of the reduction unit (10_state.md R35). -/
structure ReduceRegs where
  rem : Nat
  sm : Nat
  kcnt : Nat
deriving DecidableEq, Repr

/-- The alignment of R171: double SM, a register of `2*K + 1` bits (R173), until it exceeds the dividend `a`, counting
in `k`. `fuel` bounds the steps. -/
def align (p : Params) (a : Nat) : (fuel sm k : Nat) → Nat × Nat
  | 0, sm, k => (sm, k)
  | fuel + 1, sm, k => if sm ≤ a then align p a fuel (trunc (2 * p.K + 1) (sm * 2)) (k + 1) else (sm, k)

/-- The `k` steps of R171, shift first, then compare and subtract: REM and SM after them. -/
def reduceSteps : (k rem sm : Nat) → Nat × Nat
  | 0, rem, sm => (rem, sm)
  | k + 1, rem, sm =>
    let sm' := sm / 2
    reduceSteps k (if sm' ≤ rem then rem - sm' else rem) sm'

/-- The loop of the reduction unit (R171), from `REM = a`, `SM = n`, `k = 0`. At most `2*K` alignment steps are needed
for a dividend below `2^(2K)` and `n ≥ 1`. -/
def reduceLoop (p : Params) (a n : Nat) : ReduceRegs :=
  let al := align p a (2 * p.K + 1) n 0
  let st := reduceSteps al.2 a al.1
  { rem := st.1, sm := st.2, kcnt := al.2 }

/-- The hidden registers after a run of the reduction unit. -/
def Hidden.afterReduce (h : Hidden) (u : ReduceRegs) : Hidden :=
  { h with rem := u.rem, sm := u.sm, kcnt := u.kcnt }

/-- The full product `val(Mul(a, b))` of two register values (R176). -/
def productValue (p : Params) (a b : Nat) : Nat :=
  val p.B (mulWords p.B p.W (big p.B p.W a) (big p.B p.W b))

/-- `MulMod(a, b, n) = Mod(val(Mul(a, b)), n)` (R176): nothing is truncated between the two. -/
def mulMod (p : Params) (n a b : Nat) : Nat := modValue (productValue p a b) n

/-- The hidden registers after one multiply-then-reduce. -/
def Hidden.afterMulMod (p : Params) (n a b : Nat) (h : Hidden) : Hidden :=
  Hidden.afterReduce { h with p := mulWords p.B p.W (big p.B p.W a) (big p.B p.W b) }
    (reduceLoop p (productValue p a b) n)

/-- MOD xd, xa, xn (R174). -/
def execMod (xd xa xn : Reg) (s : State) : Result :=
  let a := s.value xa
  let n := s.value xn
  withModulus n s
    (succeed ((s.setValue xd (modValue a n)).setHidden (s.hid.afterReduce (reduceLoop s.cfg a n))))

/-- MULMOD xd, xa, xb, xn (R177). -/
def execMulmod (xd xa xb xn : Reg) (s : State) : Result :=
  let a := s.value xa
  let b := s.value xb
  let n := s.value xn
  withModulus n s
    (succeed ((s.setValue xd (mulMod s.cfg n a b)).setHidden (s.hid.afterMulMod s.cfg n a b)))

end Sys2Proof.Machine
end

