-- ==== Sys2Proof/Machine/Exponent.lean ====
section
/-! DEFINITION. Exponent.lean: binary square-and-multiply exponentiation, EXPB and EXPBK (45_exp_binary.md R185 to
R188). -/

namespace Sys2Proof.Machine

open Sys2Proof.Config (Params)

/-- The modular multiplier a rule selects (00_scope.md R12, `MM`). -/
inductive Multiplier where
  | mulReduce
  | blakley
deriving DecidableEq, Repr

/-- `MM(a, b, n)` (00_scope.md R12). -/
def Multiplier.run (m : Multiplier) (p : Params) (n a b : Nat) : Nat :=
  match m with
  | .mulReduce => mulMod p n a b
  | .blakley => Machine.blakley p n a b

/-- The hidden registers after one `MM(a, b, n)`. -/
def Multiplier.scratch (m : Multiplier) (p : Params) (n : Nat) (h : Hidden) (ab : Nat × Nat) : Hidden :=
  match m with
  | .mulReduce => h.afterMulMod p n ab.1 ab.2
  | .blakley => h.afterBlakley p n ab.1 ab.2

/-- *square at i* (R185). -/
def squareAt (mm : Nat → Nat → Nat) (C : Nat) : Nat := mm C C

/-- *multiply at i* (R185): the accumulator first, the base second, only on a set bit. -/
def multiplyAt (mm : Nat → Nat → Nat) (M E i C : Nat) : Nat := if bit E i = 1 then mm C M else C

/-- The loop of R185 over bits `i - 1` down to 0. -/
def expBinLoop (mm : Nat → Nat → Nat) (M E : Nat) : (i C : Nat) → Nat
  | 0, C => C
  | i + 1, C => expBinLoop mm M E i (multiplyAt mm M E i (squareAt mm C))

/-- `ExpBin(M, E, n, MM)` (R185): 1 for a zero exponent, else from `C = M` over the bits below the top one. -/
def expBin (mm : Nat → Nat → Nat) (M E : Nat) : Nat :=
  if E = 0 then 1 else expBinLoop mm M E (nbits E - 1) M

/-- The operand pairs of the multiplications the loop of R185 makes, in order. -/
def expBinCalls (mm : Nat → Nat → Nat) (M E : Nat) : (i C : Nat) → List (Nat × Nat)
  | 0, _ => []
  | i + 1, C =>
    let sq := squareAt mm C
    (C, C) :: ((if bit E i = 1 then [(sq, M)] else []) ++ expBinCalls mm M E i (multiplyAt mm M E i sq))

/-- The multiplications of one `ExpBin` (R186 counts them). -/
def expBinAllCalls (mm : Nat → Nat → Nat) (M E : Nat) : List (Nat × Nat) :=
  if E = 0 then [] else expBinCalls mm M E (nbits E - 1) M

/-- The hidden registers after a binary exponentiation: the multiplier's own as its last run left them, ACC the result,
IDX 0 (log 6). -/
def Hidden.afterExpBin (m : Multiplier) (p : Params) (n M E : Nat) (h : Hidden) : Hidden :=
  { (expBinAllCalls (m.run p n) M E).foldl (m.scratch p n) h with acc := expBin (m.run p n) M E, idx := 0 }

/-- Both binary commands: the check of R186, then `x[rd] <- ExpBin(M, E, n, MM)`. -/
def execExpBinary (m : Multiplier) (xd xm xe xn : Reg) (s : State) : Result :=
  let M := s.value xm
  let E := s.value xe
  let n := s.value xn
  withModulus n s
    (succeed ((s.setValue xd (expBin (m.run s.cfg n) M E)).setHidden (s.hid.afterExpBin m s.cfg n M E)))

/-- EXPB xd, xm, xe, xn (R186). -/
def execExpb (xd xm xe xn : Reg) (s : State) : Result := execExpBinary .mulReduce xd xm xe xn s

/-- EXPBK xd, xm, xe, xn (R187). -/
def execExpbk (xd xm xe xn : Reg) (s : State) : Result := execExpBinary .blakley xd xm xe xn s

end Sys2Proof.Machine
end

