-- ==== Sys2Proof/Machine/Shift.lean ====
section
/-! DEFINITION. Shift.lean: SHL1, SHR1, BSHL (41_shifts.md R140 to R142). No flag is written. -/

namespace Sys2Proof.Machine

/-- The words shifted left by one bit; `low` enters at bit 0 of the first word, and the top bit of each word enters
the word above (R140). -/
def shl1Words (B : Nat) : Words → (low : Nat) → Words
  | [], _ => []
  | w :: ws, low => (trunc B (w * 2) + low) :: shl1Words B ws (w / 2 ^ (B - 1))

/-- The words shifted right by one bit; the bottom bit of the word above enters at bit `B-1`, 0 at the top (R141). -/
def shr1Words (B : Nat) : Words → Words
  | [] => []
  | w :: ws => (w / 2 + wordAt ws 0 % 2 * 2 ^ (B - 1)) :: shr1Words B ws

/-- The words shifted up by `m` whole words, zeros below, the top `m` discarded (R142). -/
def bshlWords (W : Nat) (v : Words) (m : Nat) : Words :=
  (List.range W).map fun j => if m ≤ j then wordAt v (j - m) else 0

/-- SHL1 xd, xa (R140). -/
def execShl1 (xd xa : Reg) (s : State) : Result :=
  succeed (s.setWords xd (shl1Words s.cfg.B (s.words xa) 0))

/-- SHR1 xd, xa (R141). -/
def execShr1 (xd xa : Reg) (s : State) : Result :=
  succeed (s.setWords xd (shr1Words s.cfg.B (s.words xa)))

/-- BSHL xd, xa, imm (R142). -/
def execBshl (xd xa : Reg) (imm : Nat) (s : State) : Result :=
  succeed (s.setWords xd (bshlWords s.cfg.W (s.words xa) imm))

end Sys2Proof.Machine
end

