-- ==== Sys2Proof/Machine/Window.lean ====
section
/-! DEFINITION. Window.lean: the exponent decomposer and m-ary windowed exponentiation, DECOMP, EXPW, EXPWK
(46_exp_windowed.md R195 to R201). -/

namespace Sys2Proof.Machine

open Sys2Proof.Config (Params)

/-- `count` successive powers from `t`: each next entry is `MM(entry, M, n)` (R198, step 1). -/
def powers (mm : Nat → Nat → Nat) (M : Nat) : (count t : Nat) → List Nat
  | 0, _ => []
  | count + 1, t => t :: powers mm M count (mm t M)

/-- The power table: `T[0] = 1`, `T[1] = M`, neither reduced, `T[i] = MM(T[i-1], M, n)` up to `M_ARY - 1` (R198). -/
def powerTable (p : Params) (mm : Nat → Nat → Nat) (M : Nat) : List Nat := 1 :: powers mm M (p.mAry - 1) M

/-- `repeat r times: C = MM(C, C, n)` (R198, step 5). -/
def squareTimes (mm : Nat → Nat → Nat) : (count C : Nat) → Nat
  | 0, C => C
  | count + 1, C => squareTimes mm count (mm C C)

/-- `if d[i] != 0: C = MM(C, T[d[i]], n)` (R198, step 5). -/
def multiplyDigit (mm : Nat → Nat → Nat) (T : List Nat) (d C : Nat) : Nat :=
  if d ≠ 0 then mm C (wordAt T d) else C

/-- Step 5 of R198 over the digits at indexes `i - 1` down to 0. -/
def expWinLoop (p : Params) (mm : Nat → Nat → Nat) (T d : List Nat) : (i C : Nat) → Nat
  | 0, C => C
  | i + 1, C => expWinLoop p mm T d i (multiplyDigit mm T (wordAt d i) (squareTimes mm p.r C))

/-- `ExpWin(M, E, n, MM)` (R198). -/
def expWin (p : Params) (mm : Nat → Nat → Nat) (M E : Nat) : Nat :=
  if E = 0 then 1
  else
    let T := powerTable p mm M
    let d := digits p E
    let s := digitCount p E
    expWinLoop p mm T d (s - 1) (wordAt T (wordAt d (s - 1)))

/-- The operand pairs of the table's multiplications: `(T[i-1], M)` for `i` in `[2, M_ARY)` (R198). -/
def powerCalls (T : List Nat) (M : Nat) : List (Nat × Nat) := T.tail.dropLast.map fun t => (t, M)

/-- The operand pairs of `count` successive squarings. -/
def squareCalls (mm : Nat → Nat → Nat) : (count C : Nat) → List (Nat × Nat)
  | 0, _ => []
  | count + 1, C => (C, C) :: squareCalls mm count (mm C C)

/-- The operand pairs of step 5 of R198, in order. -/
def expWinCalls (p : Params) (mm : Nat → Nat → Nat) (T d : List Nat) : (i C : Nat) → List (Nat × Nat)
  | 0, _ => []
  | i + 1, C =>
    let sq := squareTimes mm p.r C
    squareCalls mm p.r C ++ ((if wordAt d i ≠ 0 then [(sq, wordAt T (wordAt d i))] else [])
      ++ expWinCalls p mm T d i (multiplyDigit mm T (wordAt d i) sq))

/-- The multiplications of one windowed exponentiation (R199 counts them). "The table is built in full for every call,
whatever the exponent" (R198). -/
def expWinAllCalls (p : Params) (mm : Nat → Nat → Nat) (M E : Nat) : List (Nat × Nat) :=
  let T := powerTable p mm M
  let d := digits p E
  let s := digitCount p E
  powerCalls T M ++ (if E = 0 then [] else expWinCalls p mm T d (s - 1) (wordAt T (wordAt d (s - 1))))

/-- The hidden registers after a windowed exponentiation: TBL the table just built, the multiplier's own as its last run
left them, ACC the result, IDX 0 (log 6). -/
def Hidden.afterExpWin (m : Multiplier) (p : Params) (n M E : Nat) (h : Hidden) : Hidden :=
  { (expWinAllCalls p (m.run p n) M E).foldl (m.scratch p n) h with
    tbl := powerTable p (m.run p n) M, acc := expWin p (m.run p n) M E, idx := 0 }

/-- DECOMP xe (R196): all of DIG, and the digit count in SRES. -/
def execDecomp (xe : Reg) (s : State) : Result :=
  let E := s.value xe
  succeed ((s.setDig (digits s.cfg E)).setSres (countWord (digitCount s.cfg E)))

/-- Both windowed commands (R199): the check first, DIG written whole "also when E = 0", `x[rd] <- ExpWin(M, E, n, MM)`.
SRES is not written. -/
def execExpWindowed (m : Multiplier) (xd xm xe xn : Reg) (s : State) : Result :=
  let M := s.value xm
  let E := s.value xe
  let n := s.value xn
  withModulus n s
    (succeed (((s.setValue xd (expWin s.cfg (m.run s.cfg n) M E)).setDig (digits s.cfg E)).setHidden
      (s.hid.afterExpWin m s.cfg n M E)))

/-- EXPW xd, xm, xe, xn (R199). -/
def execExpw (xd xm xe xn : Reg) (s : State) : Result := execExpWindowed .mulReduce xd xm xe xn s

/-- EXPWK xd, xm, xe, xn (R200). -/
def execExpwk (xd xm xe xn : Reg) (s : State) : Result := execExpWindowed .blakley xd xm xe xn s

end Sys2Proof.Machine
end

