-- ==== Sys2Proof/Machine/Dispatch.lean ====
section
/-! DEFINITION. Dispatch.lean: exec, one arm per constructor of Instr, each a direct call of its meaning. -/

namespace Sys2Proof.Machine

/-- `Exec(CMD)` applied, with the completion of 10_state.md R43: the command's writes or its error, as one step. -/
def exec (i : Instr) (s : State) : Host.Outcome State Fault Refusal :=
  match i with
  | .clr xd => Sys2Proof.Machine.execClr xd s
  | .ldi xd imm => Sys2Proof.Machine.execLdi xd imm s
  | .mov xd xa => Sys2Proof.Machine.execMov xd xa s
  | .cmp xa xb => Sys2Proof.Machine.execCmp xa xb s
  | .getbit xa imm => Sys2Proof.Machine.execGetbit xa imm s
  | .nbits xa => Sys2Proof.Machine.execNbits xa s
  | .shl1 xd xa => Sys2Proof.Machine.execShl1 xd xa s
  | .shr1 xd xa => Sys2Proof.Machine.execShr1 xd xa s
  | .bshl xd xa imm => Sys2Proof.Machine.execBshl xd xa imm s
  | .add xd xa xb => Sys2Proof.Machine.execAdd xd xa xb s
  | .sub xd xa xb => Sys2Proof.Machine.execSub xd xa xb s
  | .mul xd xa xb => Sys2Proof.Machine.execMul xd xa xb s
  | .mod xd xa xn => Sys2Proof.Machine.execMod xd xa xn s
  | .mulmod xd xa xb xn => Sys2Proof.Machine.execMulmod xd xa xb xn s
  | .expb xd xm xe xn => Sys2Proof.Machine.execExpb xd xm xe xn s
  | .expbk xd xm xe xn => Sys2Proof.Machine.execExpbk xd xm xe xn s
  | .expw xd xm xe xn => Sys2Proof.Machine.execExpw xd xm xe xn s
  | .expwk xd xm xe xn => Sys2Proof.Machine.execExpwk xd xm xe xn s
  | .decomp xe => Sys2Proof.Machine.execDecomp xe s
  | .blak xd xa xb xn => Sys2Proof.Machine.execBlak xd xa xb xn s

end Sys2Proof.Machine
end

