-- ==== Sys2Proof/Machine/HostPort.lean ====
section
/-! DEFINITION. HostPort.lean: the host register map and what each host transaction does (20_memory.md R60 to R74),
reset in a run (70_reset_and_hazards.md R250, R251), and whose turn the next step is (10_state.md R20, R45). -/

namespace Sys2Proof.Machine

open Sys2Proof.Config (Params)

/-! ## The register map (20_memory.md R64) -/

/-- What a host address names (20_memory.md R64). -/
inductive Location where
  | cmd
  | status
  | sres
  | cfg
  | dig (i : Nat)
  | word (i : Reg) (j : Nat)
  | unmapped
deriving DecidableEq, Repr

/-- The location an address names in a build (20_memory.md R64). In the operand window the address is
`0x8000 + i*0x1000 + j`. -/
def locate (p : Params) (addr : HostAddr) : Location :=
  let a := addr.toNat
  if a = 0x0000 then .cmd
  else if a = 0x0001 then .status
  else if a = 0x0002 then .sres
  else if a = 0x0003 then .cfg
  else if a < 0x4000 then .unmapped
  else if a < 0x8000 then
    if a - 0x4000 < p.dmax then .dig (a - 0x4000) else .unmapped
  else
    let i := (a - 0x8000) / 0x1000
    let j := (a - 0x8000) % 0x1000
    if j < p.W then .word (.ofField (BitVec.ofNat 3 i)) j else .unmapped

/-- The content of a mapped location as a bus word; none where nothing is mapped (20_memory.md R63, R64). -/
def State.content (s : State) : Location → Option BusWord
  | .cmd => some s.cmd
  | .status => some s.status.word
  | .sres => some s.sres
  | .cfg => some (cfgWord s.cfg)
  | .dig i => some (BitVec.ofNat 32 (wordAt s.dig i))
  | .word i j => some (BitVec.ofNat 32 (wordAt (s.words i) j))
  | .unmapped => none

/-- What the location at an address holds, seen by nobody: no transaction, no effect. -/
def State.peek (s : State) (addr : HostAddr) : Option BusWord := s.content (locate s.cfg addr)

/-! ## Transactions (20_memory.md R61, R62, R66) -/

/-- `STATUS.HAZ <- v`. -/
def State.setHaz (s : State) (v : Bool) : State := { s with status := { s.status with haz := v } }

/-- `x[i].word[j] <- trunc_B(v)`; the other words stay (20_memory.md R63). -/
def State.setWord (s : State) (i : Reg) (j : Nat) (v : BusWord) : State :=
  s.setWords i ((s.words i).set j (trunc s.cfg.B v.toNat))

/-- `MemRead(addr, 1)` (20_memory.md R61): the word returned and the state after. While busy only STATUS is readable,
and an unmapped address is never; both violations return 0 and set HAZ (R66). -/
def memRead (s : State) (addr : HostAddr) : BusWord × State :=
  if s.status.busy && locate s.cfg addr != .status then (0, s.setHaz true)
  else
    match s.peek addr with
    | some v => (v, s)
    | none => (0, s.setHaz true)

/-- `MemWrite(addr, 1, v)` (20_memory.md R62): while busy, or to an unmapped address, dropped with HAZ set (R66). -/
def memWrite (s : State) (addr : HostAddr) (v : BusWord) : State :=
  if s.status.busy then s.setHaz true
  else
    match locate s.cfg addr with
    | .cmd => s.issue v
    | .status => if v.getLsbD 4 then s.setHaz false else s
    | .sres => s
    | .cfg => s
    | .dig _ => s
    | .word i j => s.setWord i j v
    | .unmapped => s.setHaz true

/-! ## Reset in a run (70_reset_and_hazards.md R250, R251) -/

/-- Big register number `i` after the `k`-th host reset: any words (10_state.md R40). -/
def freeRegister (p : Params) (k i : Nat) : Words :=
  (List.range p.W).map fun j => trunc p.B (Config.freeWord k i j)

/-- The big registers after the `k`-th host reset. -/
def freeRegs (p : Params) (k : Nat) : Regs :=
  { x0 := freeRegister p k 0, x1 := freeRegister p k 1, x2 := freeRegister p k 2, x3 := freeRegister p k 3
    x4 := freeRegister p k 4, x5 := freeRegister p k 5, x6 := freeRegister p k 6, x7 := freeRegister p k 7 }

/-- DIG after the `k`-th host reset: any entries (10_state.md R40). -/
def freeDig (p : Params) (k : Nat) : List Nat :=
  (List.range p.dmax).map fun i => trunc p.r (Config.freeDigit k i)

/-- The hidden registers after the `k`-th host reset: any values of their widths (10_state.md R35, R40). -/
def freeHidden (p : Params) (k : Nat) : Hidden :=
  { p := (List.range (2 * p.W)).map fun j => trunc p.B (Config.freeHidden k 0 j)
    rem := trunc (2 * p.K) (Config.freeHidden k 1 0)
    sm := trunc (2 * p.K + 1) (Config.freeHidden k 2 0)
    kcnt := Config.freeHidden k 3 0 % (2 * p.K + 1)
    acc := trunc p.K (Config.freeHidden k 4 0)
    tbl := (List.range p.mAry).map fun j => trunc p.K (Config.freeHidden k 5 j)
    rb := trunc (p.K + 2) (Config.freeHidden k 6 0)
    idx := Config.freeHidden k 7 0 % (p.K + 1)
    opa := trunc p.K (Config.freeHidden k 8 0)
    opb := trunc p.K (Config.freeHidden k 9 0)
    opn := trunc p.K (Config.freeHidden k 10 0) }

/-- Reset, idle or busy, in one step (70_reset_and_hazards.md R250): a command in flight ends without completion
(R251). The host keeps its own script, schedule and replies (log 16). -/
def State.hostReset (s : State) : State :=
  { State.resetWith s.cfg (freeRegs s.cfg s.freeIx) (freeDig s.cfg s.freeIx) (freeHidden s.cfg s.freeIx) with
    script := s.script, sched := s.sched, replies := s.replies, freeIx := s.freeIx + 1 }

/-! ## Host scripts (30_encoding.md R101) -/

/-- Host address of CMD. -/
def cmdAddr : HostAddr := 0x0000

/-- Host address of STATUS. -/
def statusAddr : HostAddr := 0x0001

/-- Host address of `x[i].word[j]` (20_memory.md R63). -/
def windowAddr (i : Reg) (j : Nat) : HostAddr := BitVec.ofNat 16 (0x8000 + i.num * 0x1000 + j)

/-- Host address of `DIG[i]` (20_memory.md R64). -/
def digAddr (i : Nat) : HostAddr := BitVec.ofNat 16 (0x4000 + i)

/-- `issue <command>` (30_encoding.md R101). -/
def HostAction.issue (i : Instr) : HostAction := .wr cmdAddr (encode i)

/-- `setw xi, j, VALUE` (30_encoding.md R101). -/
def HostAction.setw (i : Reg) (j : Nat) (v : BusWord) : HostAction := .wr (windowAddr i j) v

/-- `getw xi, j` (30_encoding.md R101). -/
def HostAction.getw (i : Reg) (j : Nat) : HostAction := .rd (windowAddr i j)

/-- A value handed to the host. -/
def State.reply (s : State) (v : BusWord) : State := { s with replies := s.replies ++ [v] }

/-- A read whose value goes to the host. -/
def State.hostRead (s : State) (addr : HostAddr) : State := (memRead s addr).2.reply (memRead s addr).1

/-- The host's action `act`, taken from its script. `wait` reads STATUS and stays first in the script until bit 0 of
the value read is 0 (30_encoding.md R101; log 9). -/
def State.hostAct (s : State) : HostAction → State
  | .rd addr => s.hostRead addr
  | .wr addr v => memWrite s addr v
  | .wait =>
    let t := s.hostRead statusAddr
    if (memRead s statusAddr).1.getLsbD 0 then { t with script := .wait :: t.script } else t
  | .reset => s.hostReset

/-! ## Turns (20_memory.md R70; 10_state.md R43, R45; log 7) -/

/-- The agent whose turn is next: as scheduled, else the core while it is busy (its weak fairness), else the host. -/
def State.nextAgent (s : State) : Agent :=
  match s.sched with
  | a :: _ => a
  | [] => if s.status.busy then .core else .host

/-- The state with the turn taken from the schedule. -/
def State.takeTurn (s : State) : State := { s with sched := s.sched.tail }

/-- What the next step is: the completion of the command in flight, or a step that leaves this state. -/
inductive Turn where
  | completion (s : State)
  | quiet (s : State)

/-- The next turn. An idle core has no step (10_state.md R43) and a host with nothing left to do does nothing, "an idle
core simply waits" (60_exceptions.md R241): such a turn passes (log 10). -/
def State.nextTurn (s : State) : Turn :=
  let t := s.takeTurn
  match s.nextAgent with
  | .core => if s.status.busy then .completion t else .quiet t
  | .host =>
    match s.script with
    | [] => .quiet t
    | act :: rest => .quiet ({ t with script := rest }.hostAct act)

end Sys2Proof.Machine
end

