-- ==== Sys2Proof/Machine/Step.lean ====
section
/-! DEFINITION. Step.lean: one step of the total order of 20_memory.md R70, a host transaction or a completion. -/

namespace Sys2Proof.Machine

/-- One step: the completion of the command in CMD (10_state.md R43), an illegal word completing with IllegalCommand
(60_exceptions.md R222), or the host's turn. -/
def step (s : State) : Host.Outcome State Fault Refusal :=
  if s.cfg.Legal then
    match s.nextTurn with
    | .quiet t => .next t
    | .completion t =>
      match t.fetchCommand with
      | .ok i => exec i t
      | .error _ => raiseError .illegalCommand t
  else .fault .illegalConfiguration

/-- The state in which the very next step completes the command word `w`: the issuing write of that word (10_state.md
R42) with the core's turn put first (log 8). Bits above `nbits` are 0. -/
def State.withFetchWord (s : State) (nbits w : Nat) : State :=
  { s.issue (BitVec.ofNat 32 (w % 2 ^ nbits)) with sched := .core :: s.sched }

end Sys2Proof.Machine
end

