-- ==== Sys2Proof/Safety.lean ====
section
/-! DEFINITION. Safety.lean: what counts as a well-formed machine, which state a command may write (10_state.md R23, R30,
R32, R34; the "state written" of every command rule), and which host accesses are violations (20_memory.md R66). -/

namespace Sys2Proof.Machine

open Sys2Proof.Config (Params)

/-! ## Well-formed states -/

/-- A word array of `N` words, every word in `[0, 2^B)` (10_state.md R22 a, b). -/
abbrev WordsOk (p : Params) (N : Nat) (ws : Words) : Prop := ws.length = N ∧ ∀ w ∈ ws, w < 2 ^ p.B

/-- The hidden registers within the widths of 10_state.md R35. -/
abbrev HiddenOk (p : Params) (h : Hidden) : Prop :=
  WordsOk p (2 * p.W) h.p ∧ h.rem < 2 ^ (2 * p.K) ∧ h.sm < 2 ^ (2 * p.K + 1) ∧ h.kcnt ≤ 2 * p.K ∧
  h.acc < 2 ^ p.K ∧ (h.tbl.length = p.mAry ∧ ∀ t ∈ h.tbl, t < 2 ^ p.K) ∧ h.rb < 2 ^ (p.K + 2) ∧ h.idx ≤ p.K ∧
  h.opa < 2 ^ p.K ∧ h.opb < 2 ^ p.K ∧ h.opn < 2 ^ p.K

/-- STATUS as the rules keep it: BUSY and DONE never both 1 (10_state.md R27); ERR only after a completion (R28), and
ERRCODE 0 exactly when ERR is 0, never above 3 (R26, 60_exceptions.md R221). -/
abbrev StatusOk (t : Status) : Prop :=
  ¬(t.busy = true ∧ t.done = true) ∧ (t.err = true → t.done = true) ∧
  (t.err = false → t.errcode = 0) ∧ (t.err = true → t.errcode ≠ 0) ∧ t.errcode.toNat ≤ 3

/-- A state of a CORE: legal parameters (00_scope.md R7), 8 registers of `W` words (10_state.md R22), `DMAX` digits of
`r` bits (R34), hidden registers within their widths (R35), a status the rules allow. -/
abbrev State.Wf (s : State) : Prop :=
  s.cfg.Legal ∧ (∀ ws ∈ s.x.toList, WordsOk s.cfg s.cfg.W ws) ∧
  (s.dig.length = s.cfg.dmax ∧ ∀ d ∈ s.dig, d < 2 ^ s.cfg.r) ∧ HiddenOk s.cfg s.hid ∧ StatusOk s.status

/-- While a command is in flight the operand copies are the values of the registers it names (10_state.md R35, R44,
70_reset_and_hazards.md R262), for any word in CMD those of its rs1, rs2 and rs3 positions (DESIGN CHOICE, log 6). -/
abbrev State.Latched (s : State) : Prop :=
  s.status.busy = true →
    s.hid.opa = s.value (.ofField (rs1Field s.cmd)) ∧ s.hid.opb = s.value (.ofField (rs2Field s.cmd)) ∧
    s.hid.opn = s.value (.ofField (rs3Field s.cmd))

/-! ## What a command reads and writes -/

/-- The big register a command writes, its `rd` (10_state.md R23); CMP, GETBIT, NBITS and DECOMP write none. -/
def dest : Instr → Option Reg
  | .clr d => some d
  | .ldi d _ => some d
  | .mov d _ => some d
  | .cmp _ _ => none
  | .getbit _ _ => none
  | .nbits _ => none
  | .shl1 d _ => some d
  | .shr1 d _ => some d
  | .bshl d _ _ => some d
  | .add d _ _ => some d
  | .sub d _ _ => some d
  | .mul d _ _ => some d
  | .mod d _ _ => some d
  | .mulmod d _ _ _ => some d
  | .expb d _ _ _ => some d
  | .expbk d _ _ _ => some d
  | .expw d _ _ _ => some d
  | .expwk d _ _ _ => some d
  | .decomp _ => none
  | .blak d _ _ _ => some d

/-- The big registers a command reads: its `rs1`, `rs2`, `rs3` (10_state.md R23). -/
def sources : Instr → List Reg
  | .clr _ => []
  | .ldi _ _ => []
  | .mov _ a => [a]
  | .cmp a b => [a, b]
  | .getbit a _ => [a]
  | .nbits a => [a]
  | .shl1 _ a => [a]
  | .shr1 _ a => [a]
  | .bshl _ a _ => [a]
  | .add _ a b => [a, b]
  | .sub _ a b => [a, b]
  | .mul _ a b => [a, b]
  | .mod _ a n => [a, n]
  | .mulmod _ a b n => [a, b, n]
  | .expb _ m e n => [m, e, n]
  | .expbk _ m e n => [m, e, n]
  | .expw _ m e n => [m, e, n]
  | .expwk _ m e n => [m, e, n]
  | .decomp e => [e]
  | .blak _ a b n => [a, b, n]

/-- The commands that write OVF: ADD and MUL (10_state.md R30). -/
def writesOvf : Instr → Bool
  | .add _ _ _ => true
  | .mul _ _ _ => true
  | _ => false

/-- The commands that write SRES: CMP, GETBIT, NBITS, DECOMP (10_state.md R32). -/
def writesSres : Instr → Bool
  | .cmp _ _ => true
  | .getbit _ _ => true
  | .nbits _ => true
  | .decomp _ => true
  | _ => false

/-- The commands that write DIG: DECOMP, EXPW, EXPWK (10_state.md R34). -/
def writesDig : Instr → Bool
  | .decomp _ => true
  | .expw _ _ _ _ => true
  | .expwk _ _ _ _ => true
  | _ => false

/-- The seven modular commands, by their modulus register: "`rs2` for MOD, `rs3` for the others" (60_exceptions.md
R221, R224). -/
def modulus : Instr → Option Reg
  | .mod _ _ n => some n
  | .mulmod _ _ _ n => some n
  | .expb _ _ _ n => some n
  | .expbk _ _ _ n => some n
  | .expw _ _ _ n => some n
  | .expwk _ _ _ n => some n
  | .blak _ _ _ n => some n
  | _ => none

/-- The error a legal command ends in, if any (60_exceptions.md R221, R229). -/
def errorOf (i : Instr) (s : State) : Option CmdError :=
  match i with
  | .sub _ a b => if s.value a < s.value b then some .underflow else none
  | i =>
    match modulus i with
    | some n => if s.value n = 0 then some .degenerateModulus else none
    | none => none

/-- The value of an exponentiation, the table of 45_exp_binary.md R188 (and 46_exp_windowed.md R201): 1 for a zero
exponent, the base itself for exponent 1, `M^E mod n` above. -/
def expTable (M E n : Nat) : Nat := if E = 0 then 1 else if E = 1 then M else M ^ E % n

/-! ## Violations (20_memory.md R66) -/

/-- A transaction the rules give no meaning: while busy anything but a STATUS read, or an unmapped address at any time.
`wait` reads STATUS only, and reset is no transaction of the register map. -/
def violates (s : State) : HostAction → Bool
  | .rd addr => (s.status.busy && addr != statusAddr) || locate s.cfg addr == .unmapped
  | .wr addr _ => s.status.busy || locate s.cfg addr == .unmapped
  | .wait => false
  | .reset => false

/-- The host action the next step performs, if the next step is the host's and it has one. -/
def nextAction (s : State) : Option HostAction :=
  match s.nextAgent with
  | .host => s.script.head?
  | .core => none

/-- The state as the host sees it: without the hidden registers (10_state.md R35). -/
def visible (s : State) : State := s.setHidden (Hidden.atReset s.cfg)

/-- An outcome as the host sees it. -/
def visibleResult : Result → Result
  | .next t => .next (visible t)
  | .fault f => .fault f
  | .refused r => .refused r

end Sys2Proof.Machine
end

