-- ==== Sys2Proof/Certificates/Slice0/Obligations.lean ====
section
/-! DEFINITION. Obligations.lean: the statements about CORE, from the numbered rules of spec/. `s.Wf` (Safety.lean) is the
well-formedness every step keeps (StepKeepsStatesWellFormed); `Regs.set`, `big` and the record updates name exactly what
changes, so each result statement carries its frame. A clause about a hidden register says what the rule's own loop leaves
there, which is the model's choice where the spec leaves it open (log 6). -/

open Sys2Proof Sys2Proof.Machine

/-! ## Encoding (30_encoding.md) -/

/-- R91 to R96: the word of a well-formed command decodes to that command, every operand at every value. -/
def Obligations.DecodeOfEncodeIsTheCommand : Prop :=
  ∀ i : Instr, i.wf = true → decode (encode i) = .ok i

/-- R96: a legal word has one meaning, and it is the word of that meaning. -/
def Obligations.EncodeOfDecodeIsTheWord : Prop :=
  ∀ (c : BusWord) (i : Instr), decode c = .ok i → encode i = c ∧ i.wf = true

/-- R94: a word is the command of a row exactly when `c AND mask = match`, and the 20 rows are disjoint. -/
def Obligations.DecodeFollowsMatchAndMask : Prop :=
  opcodeTable.length = 20 ∧
  ∀ c : BusWord,
    (∀ i, decode c = .ok i → ∃ row ∈ opcodeTable, row.mnemonic = i.mnemonic ∧ row.Matches c) ∧
    (∀ row ∈ opcodeTable, row.Matches c → ∃ i, decode c = .ok i ∧ i.mnemonic = row.mnemonic) ∧
    (∀ r₁ ∈ opcodeTable, ∀ r₂ ∈ opcodeTable, r₁.Matches c → r₂.Matches c → r₁ = r₂)

/-- R102: the worked encodings, and the two words it calls illegal. -/
def Obligations.WorkedEncodingsDecode : Prop :=
  decode 0x30650000 = .ok (.add .x3 .x1 .x2) ∧ encode (.add .x3 .x1 .x2) = 0x30650000 ∧
  decode 0x02200005 = .ok (.ldi .x1 5) ∧ encode (.ldi .x1 5) = 0x02200005 ∧
  decode 0x60053000 = .ok (.expb .x0 .x1 .x2 .x3) ∧ encode (.expb .x0 .x1 .x2 .x3) = 0x60053000 ∧
  decode 0x11080003 = .ok (.getbit .x2 3) ∧ encode (.getbit .x2 3) = 0x11080003 ∧
  decode 0x10100000 = .ok (.cmp .x4 .x0) ∧ encode (.cmp .x4 .x0) = 0x10100000 ∧
  (∃ e, decode 0x30650001 = .error e) ∧ (∃ e, decode 0x10200000 = .error e)

/-! ## The step: completion, issue, the host's turn (10_state.md R41 to R45, 20_memory.md R70) -/

/-- R43: while busy, at the core's turn, the step is `exec` of the decoded command, on the state with only the turn taken
from the schedule. -/
def Obligations.StepCompletesTheDecodedCommand : Prop :=
  ∀ (s : State) (i : Instr), s.cfg.Legal → s.status.busy = true → s.nextAgent = .core → decode s.cmd = .ok i →
    step s = exec i { s with sched := s.sched.tail }

/-- R222: an illegal word completes with `ERR = 1, ERRCODE = 1` and no other change. -/
def Obligations.IllegalWordEndsInIllegalCommand : Prop :=
  ∀ (s : State) (e : DecodeError), s.cfg.Legal → s.status.busy = true → s.nextAgent = .core → decode s.cmd = .error e →
    step s = .next { s with
      sched := s.sched.tail
      status := { s.status with busy := false, done := true, err := true, errcode := 1 } }

/-- R42: a write to CMD while idle issues the word, legal or not, and nothing else the host can read changes. R35 says that
issue latches the operand copies; that it takes them from the rs1, rs2 and rs3 positions of any word, also an illegal one or
one of format I, is the model's choice (log 6). -/
def Obligations.WriteToCmdWhileIdleIssues : Prop :=
  ∀ (s : State) (c : BusWord), s.status.busy = false →
    memWrite s 0x0000 c = { s with
      cmd := c
      status := { s.status with busy := true, done := false, err := false, errcode := 0 }
      hid := { s.hid with
        opa := s.value (.ofField (rs1Field c)), opb := s.value (.ofField (rs2Field c))
        opn := s.value (.ofField (rs3Field c)) } }

/-- R20, R70: at the host's turn the step is its next transaction, taken whole; a read's value goes to the host. The turn,
the script and the replies are the model's fields (logs 7, 8, 13). -/
def Obligations.StepPerformsTheHostsAction : Prop :=
  ∀ (s : State) (act : HostAction) (rest : List HostAction), s.cfg.Legal → s.nextAgent = .host → s.script = act :: rest →
    let t : State := { s with sched := s.sched.tail, script := rest }
    (∀ addr, act = .rd addr →
      step s = .next { (memRead t addr).2 with replies := s.replies ++ [(memRead t addr).1] }) ∧
    (∀ addr v, act = .wr addr v → step s = .next (memWrite t addr v)) ∧
    (act = .reset → step s = .next t.hostReset)

/-- R101: `wait` reads STATUS and goes on exactly when bit 0 of the value read is 0. The read itself is one of the model's
turns (log 9). -/
def Obligations.WaitRepeatsUntilBusyReadsZero : Prop :=
  ∀ (s : State) (rest : List HostAction), s.cfg.Legal → s.nextAgent = .host → s.script = .wait :: rest →
    step s = .next { s with
      sched := s.sched.tail
      replies := s.replies ++ [s.status.word]
      script := if s.status.busy = true then .wait :: rest else rest }

/-- R241, the model's choice of log 10: with no turn scheduled, no action left and no command in flight nothing changes. -/
def Obligations.IdleMachineWaits : Prop :=
  ∀ s : State, s.cfg.Legal → s.status.busy = false → s.sched = [] → s.script = [] → step s = .next s

/-- R45: a busy core becomes idle, by completion or by reset, at the latest when the schedule is used up (log 7). -/
def Obligations.BusyCoreBecomesIdle : Prop :=
  ∀ s : State, s.cfg.Legal → s.status.busy = true →
    ∃ k ≤ s.sched.length + 1, ∃ t, Host.Core.run core k s = .next t ∧ t.status.busy = false

/-- R66, R96, R45: every step of a legal build has a next state; only an illegal build stops (log 14). -/
def Obligations.EveryStepOfALegalBuildIsDefined : Prop :=
  ∀ s : State, (s.cfg.Legal → ∃ t, step s = .next t) ∧ (¬ s.cfg.Legal → step s = .fault .illegalConfiguration)

/-! ## The host register map (20_memory.md) -/

/-- R64: what every host address names. -/
def Obligations.RegisterMapFollowsTheTable : Prop :=
  ∀ (p : Config.Params), p.Legal →
    (locate p 0x0000 = .cmd ∧ locate p 0x0001 = .status ∧ locate p 0x0002 = .sres ∧ locate p 0x0003 = .cfg) ∧
    (∀ a : Nat, 0x0004 ≤ a → a ≤ 0x3FFF → locate p (BitVec.ofNat 16 a) = .unmapped) ∧
    (∀ i : Nat, i < p.dmax → locate p (BitVec.ofNat 16 (0x4000 + i)) = .dig i) ∧
    (∀ i : Nat, p.dmax ≤ i → i < 0x4000 → locate p (BitVec.ofNat 16 (0x4000 + i)) = .unmapped) ∧
    (∀ (i : Reg) (j : Nat), j < p.W → locate p (BitVec.ofNat 16 (0x8000 + i.num * 0x1000 + j)) = .word i j) ∧
    (∀ (i : Reg) (j : Nat), p.W ≤ j → j < 0x1000 →
      locate p (BitVec.ofNat 16 (0x8000 + i.num * 0x1000 + j)) = .unmapped)

/-- R63: the operand window, written truncated to `B` bits and read zero-extended, one word and nothing else; word `j`
weighs `2^(B*j)` in the register's value. -/
def Obligations.OperandWindowReadsAndWritesOneWord : Prop :=
  ∀ (s : State) (i : Reg) (j : Nat) (v : BusWord), s.Wf → s.status.busy = false → j < s.cfg.W →
    memWrite s (BitVec.ofNat 16 (0x8000 + i.num * 0x1000 + j)) v =
      { s with x := s.x.set i ((s.words i).set j (v.toNat % 2 ^ s.cfg.B)) } ∧
    (memRead s (BitVec.ofNat 16 (0x8000 + i.num * 0x1000 + j))).2 = s ∧
    (memRead s (BitVec.ofNat 16 (0x8000 + i.num * 0x1000 + j))).1.toNat = wordAt (s.words i) j ∧
    s.value i = ((List.range s.cfg.W).map fun j => wordAt (s.words i) j * 2 ^ (s.cfg.B * j)).sum

/-- R66: a violation sets HAZ and has no other effect; a violating write is dropped, a violating read returns 0. A STATUS
read is always allowed. -/
def Obligations.ViolationsSetHazAndNothingElse : Prop :=
  ∀ (s : State) (addr : HostAddr) (v : BusWord),
    ((s.status.busy = true ∨ locate s.cfg addr = .unmapped) →
      memWrite s addr v = { s with status := { s.status with haz := true } }) ∧
    ((s.status.busy = true ∧ addr ≠ 0x0001 ∨ locate s.cfg addr = .unmapped) →
      memRead s addr = (0, { s with status := { s.status with haz := true } })) ∧
    memRead s 0x0001 = (s.status.word, s)

/-- R62, R26: while idle a write to SRES, CFG or DIG is ignored, and a write to STATUS clears HAZ when bit 4 of the value is
1 and changes nothing else. -/
def Obligations.ReadOnlyLocationsIgnoreWrites : Prop :=
  ∀ (s : State) (v : BusWord), s.status.busy = false →
    memWrite s 0x0002 v = s ∧ memWrite s 0x0003 v = s ∧
    (∀ addr i, locate s.cfg addr = .dig i → memWrite s addr v = s) ∧
    memWrite s 0x0001 v = if v.getLsbD 4 then { s with status := { s.status with haz := false } } else s

/-- R61: a read never changes any state except possibly HAZ, which it can only set; a second read returns the same; a STATUS
read changes nothing at all. -/
def Obligations.ReadsChangeAtMostHaz : Prop :=
  ∀ (s : State) (addr : HostAddr),
    ((memRead s addr).2 = s ∨ (memRead s addr).2 = { s with status := { s.status with haz := true } }) ∧
    (memRead (memRead s addr).2 addr).1 = (memRead s addr).1 ∧ (memRead s 0x0001).2 = s

/-- R26: the layout of the STATUS word. -/
def Obligations.StatusWordLayout : Prop :=
  ∀ t : Status,
    t.word.getLsbD 0 = t.busy ∧ t.word.getLsbD 1 = t.done ∧ t.word.getLsbD 2 = t.err ∧ t.word.getLsbD 3 = t.ovf ∧
    t.word.getLsbD 4 = t.haz ∧ t.word.extractLsb' 5 3 = 0 ∧ t.word.extractLsb' 8 4 = t.errcode ∧
    t.word.extractLsb' 12 20 = 0

/-- R33: CFG reads back `B`, `r` and `W`, ignores writes, and is constant: no step changes it. -/
def Obligations.ConfigurationReadsBack : Prop :=
  (∀ (s : State) (v : BusWord), s.cfg.Legal → s.status.busy = false →
    (memRead s 0x0003).2 = s ∧ ((memRead s 0x0003).1.extractLsb' 0 8).toNat = s.cfg.B ∧
    ((memRead s 0x0003).1.extractLsb' 8 8).toNat = s.cfg.r ∧
    ((memRead s 0x0003).1.extractLsb' 16 16).toNat = s.cfg.W ∧ memWrite s 0x0003 v = s) ∧
  ∀ s t : State, step s = .next t → t.cfg = s.cfg

/-- R25, R32, R34: while idle CMD, SRES and every DIG entry read back as they are, zero-extended. -/
def Obligations.ResultsReadBack : Prop :=
  ∀ (s : State) (i : Nat), s.Wf → s.status.busy = false → i < s.cfg.dmax →
    memRead s 0x0000 = (s.cmd, s) ∧ memRead s 0x0002 = (s.sres, s) ∧
    (memRead s (BitVec.ofNat 16 (0x4000 + i))).2 = s ∧
    (memRead s (BitVec.ofNat 16 (0x4000 + i))).1.toNat = wordAt s.dig i

/-- R31, R66: HAZ is set by exactly the violations and cleared only by the host writing 1 to STATUS bit 4 while idle, or by
reset. -/
def Obligations.HazFollowsTheHostOnly : Prop :=
  ∀ s t : State, step s = .next t →
    (s.status.haz = false → (t.status.haz = true ↔ ∃ act, nextAction s = some act ∧ violates s act = true)) ∧
    (s.status.haz = true → t.status.haz = false →
      nextAction s = some .reset ∨
      ∃ v : BusWord, nextAction s = some (.wr 0x0001 v) ∧ v.getLsbD 4 = true ∧ s.status.busy = false)

/-! ## Reset (10_state.md R40, 70_reset_and_hazards.md R250, R251) -/

/-- R40: what reset leaves in the registers the spec gives a value. -/
def Obligations.ResetValues : Prop :=
  State.reset.cmd = 0x00000000 ∧ State.reset.status.word = 0x00000000 ∧ State.reset.sres = 0x00000000 ∧
  ∀ p x dig hid, (State.resetWith p x dig hid).cmd = 0x00000000 ∧ (State.resetWith p x dig hid).status.word = 0x00000000 ∧
    (State.resetWith p x dig hid).sres = 0x00000000 ∧ (State.resetWith p x dig hid).cfg = p

/-- R250, R251: reset, idle or busy, in one step; CMD, STATUS and SRES become 0, CFG keeps its constant, and a command in
flight ends without completion. R250 and R40 leave the big registers, DIG and the hidden registers unspecified: that they are
these free constants, of which nothing can be proved, is the model's form of that (log 5). -/
def Obligations.ResetEndsTheCommandInFlight : Prop :=
  ∀ s : State, s.cfg.Legal → nextAction s = some .reset → ∃ t, step s = .next t ∧
    t.cmd = 0x00000000 ∧ t.sres = 0x00000000 ∧ t.status.word = 0x00000000 ∧ t.status.busy = false ∧
    t.status.done = false ∧ t.cfg = s.cfg ∧
    t.x = freeRegs s.cfg s.freeIx ∧ t.dig = freeDig s.cfg s.freeIx ∧ t.hid = freeHidden s.cfg s.freeIx

/-- Logs 2, 3, 4: the state the model names for reset is well-formed, and so is every legal build's reset with any contents
of its registers (R40: any value). -/
def Obligations.ResetIsWellFormed : Prop :=
  State.reset.Wf ∧ State.reset.Latched ∧
  ∀ (p : Config.Params) (x : Regs) (dig : List Nat) (hid : Hidden), p.Legal →
    (∀ ws ∈ x.toList, WordsOk p p.W ws) → (dig.length = p.dmax ∧ ∀ d ∈ dig, d < 2 ^ p.r) → HiddenOk p hid →
    (State.resetWith p x dig hid).Wf ∧ (State.resetWith p x dig hid).Latched

/-! ## Invariants of every step -/

/-- R22, R27, R28, R34, R35: every step keeps the registers at their lengths and widths and STATUS at an allowed value; in
particular no word ever leaves `[0, 2^B)` and BUSY and DONE are never both 1. -/
def Obligations.StepKeepsStatesWellFormed : Prop :=
  ∀ s t : State, s.Wf → step s = .next t → t.Wf

/-- R35, R262: while a command is in flight the operand copies stay the values of the registers it names. `Latched` speaks of
the rs1, rs2 and rs3 positions of any word in CMD, also an illegal one, one of format I or one with fields its command does not
use: that is the model's choice (log 6), and that a command may read the registers instead of the copies is deduced (log 18). -/
def Obligations.StepKeepsOperandCopies : Prop :=
  ∀ s t : State, s.Latched → step s = .next t → t.Latched

/-- R44: between issue and completion no host transaction changes a big register, DIG, SRES, OVF or CMD. -/
def Obligations.NothingMovesWhileBusy : Prop :=
  ∀ s t : State, s.status.busy = true → step s = .next t → t.status.busy = true →
    t.x = s.x ∧ t.dig = s.dig ∧ t.sres = s.sres ∧ t.status.ovf = s.status.ovf ∧ t.cmd = s.cmd

/-! ## Errors (60_exceptions.md) -/

/-- R228, R229: a command that ends in an error writes `ERR`, `ERRCODE`, `BUSY`, `DONE` and nothing else. -/
def Obligations.ErrorsArePrecise : Prop :=
  ∀ (i : Instr) (s : State) (e : CmdError), s.Wf → errorOf i s = some e →
    exec i s = .next { s with status := { s.status with busy := false, done := true, err := true, errcode := e.code } }

/-- R43, R221: a command without an error cause succeeds: `ERR`, `ERRCODE`, `BUSY` become 0 and `DONE` 1. -/
def Obligations.CommandsWithoutErrorSucceed : Prop :=
  ∀ (i : Instr) (s : State), s.Wf → errorOf i s = none →
    ∃ t, exec i s = .next t ∧ t.status.busy = false ∧ t.status.done = true ∧ t.status.err = false ∧ t.status.errcode = 0

/-- R223: SUB with the minuend below the subtrahend ends in Underflow; `x[rd]` and OVF keep their values. -/
def Obligations.SubUnderflows : Prop :=
  ∀ (s : State) (xd xa xb : Reg), s.Wf → s.value xa < s.value xb →
    exec (.sub xd xa xb) s =
      .next { s with status := { s.status with busy := false, done := true, err := true, errcode := 2 } }

/-- R224: the seven modular commands end in DegenerateModulus when their modulus register holds 0, whatever the other
operands, and write neither `x[rd]` nor DIG. -/
def Obligations.ZeroModulusIsRefusedFirst : Prop :=
  ∀ (s : State) (xd xa xb xn : Reg) (i : Instr), s.value xn = 0 →
    i ∈ [.mod xd xa xn, .mulmod xd xa xb xn, .expb xd xa xb xn, .expbk xd xa xb xn, .expw xd xa xb xn,
      .expwk xd xa xb xn, .blak xd xa xb xn] →
    exec i s = .next { s with status := { s.status with busy := false, done := true, err := true, errcode := 3 } }

/-! ## What a command leaves unchanged -/

/-- R23: a command changes no big register but its `rd`; CMP, GETBIT, NBITS and DECOMP change none. -/
def Obligations.OnlyTheDestinationRegisterChanges : Prop :=
  ∀ (i : Instr) (s t : State), exec i s = .next t → ∀ r : Reg, dest i ≠ some r → t.words r = s.words r

/-- R30: only ADD and MUL write OVF; a command that ended in error leaves it. -/
def Obligations.OnlyAddAndMulWriteOvf : Prop :=
  ∀ (i : Instr) (s t : State), exec i s = .next t → writesOvf i = false ∨ t.status.err = true →
    t.status.ovf = s.status.ovf

/-- R32, R34: only CMP, GETBIT, NBITS and DECOMP write SRES, and only DECOMP, EXPW and EXPWK write DIG; a command that ended
in error leaves both. -/
def Obligations.SresAndDigHaveTheirWriters : Prop :=
  ∀ (i : Instr) (s t : State), exec i s = .next t →
    (writesSres i = false ∨ t.status.err = true → t.sres = s.sres) ∧
    (writesDig i = false ∨ t.status.err = true → t.dig = s.dig)

/-- R25, R31, R33: no command changes CMD, HAZ, the parameters, or anything of the host's. -/
def Obligations.CommandsLeaveTheHostSideAlone : Prop :=
  ∀ (i : Instr) (s t : State), exec i s = .next t →
    t.cmd = s.cmd ∧ t.status.haz = s.status.haz ∧ t.cfg = s.cfg ∧ t.script = s.script ∧ t.sched = s.sched ∧
    t.replies = s.replies ∧ t.freeIx = s.freeIx

/-- R64 with R23, R30 to R34: every location of the host register map reads after a command as before it, but for STATUS, the
window of `rd`, and SRES and DIG for the commands that write them. -/
def Obligations.RegisterMapFrame : Prop :=
  ∀ (i : Instr) (s t : State) (addr : HostAddr), exec i s = .next t →
    match locate s.cfg addr with
    | .status => True
    | .sres => writesSres i = false → t.peek addr = s.peek addr
    | .dig _ => writesDig i = false → t.peek addr = s.peek addr
    | .word r _ => dest i ≠ some r → t.peek addr = s.peek addr
    | _ => t.peek addr = s.peek addr

/-- R35, the "used by" column: a command changes no hidden register but those of the units it uses, and never the operand
copies, which issue latches. What it leaves in the ones it uses is the model's choice (log 6). -/
def Obligations.HiddenRegistersHaveTheirUsers : Prop :=
  ∀ (i : Instr) (s t : State), exec i s = .next t →
    (t.hid.opa = s.hid.opa ∧ t.hid.opb = s.hid.opb ∧ t.hid.opn = s.hid.opn) ∧
    ((∀ d a b, i ≠ .mul d a b) → (∀ d a b n, i ≠ .mulmod d a b n ∧ i ≠ .expb d a b n ∧ i ≠ .expw d a b n) →
      t.hid.p = s.hid.p) ∧
    ((∀ d a n, i ≠ .mod d a n) → (∀ d a b n, i ≠ .mulmod d a b n ∧ i ≠ .expb d a b n ∧ i ≠ .expw d a b n) →
      t.hid.rem = s.hid.rem ∧ t.hid.sm = s.hid.sm ∧ t.hid.kcnt = s.hid.kcnt) ∧
    ((∀ d a b n, i ≠ .blak d a b n ∧ i ≠ .expbk d a b n ∧ i ≠ .expwk d a b n) → t.hid.rb = s.hid.rb) ∧
    ((∀ d a b n, i ≠ .expw d a b n ∧ i ≠ .expwk d a b n) → t.hid.tbl = s.hid.tbl) ∧
    ((∀ d a b n, i ≠ .expb d a b n ∧ i ≠ .expbk d a b n ∧ i ≠ .expw d a b n ∧ i ≠ .expwk d a b n) →
      t.hid.acc = s.hid.acc) ∧
    ((∀ d a b n, i ≠ .blak d a b n ∧ i ≠ .expb d a b n ∧ i ≠ .expbk d a b n ∧ i ≠ .expw d a b n ∧ i ≠ .expwk d a b n) →
      t.hid.idx = s.hid.idx)

/-- R35, R263: the hidden registers have no effect the host can see: whatever they hold, a step's visible outcome is the
same. -/
def Obligations.HiddenStateIsInvisible : Prop :=
  ∀ (s : State) (h : Hidden), visibleResult (step (s.setHidden h)) = visibleResult (step s)

/-- R263: the outcome of a command is a function of the command, the registers it names and the parameters alone. -/
def Obligations.OutcomeDependsOnNamedRegistersOnly : Prop :=
  ∀ (i : Instr) (s u s' u' : State), s.cfg = u.cfg → (∀ r ∈ sources i, s.words r = u.words r) →
    exec i s = .next s' → exec i u = .next u' →
    s'.status.err = u'.status.err ∧ s'.status.errcode = u'.status.errcode ∧
    (s'.status.err = false →
      (∀ d, dest i = some d → s'.words d = u'.words d) ∧ (writesOvf i = true → s'.status.ovf = u'.status.ovf) ∧
      (writesSres i = true → s'.sres = u'.sres) ∧ (writesDig i = true → s'.dig = u'.dig))

/-! ## What each command computes -/

/-- R120, R121, R122: CLR, LDI, MOV. -/
def Obligations.ConstructionResults : Prop :=
  ∀ (s : State) (xd xa : Reg) (imm : Nat),
    exec (.clr xd) s = .next { s with
      x := s.x.set xd (List.replicate s.cfg.W 0), status := s.status.completed } ∧
    exec (.ldi xd imm) s = .next { s with
      x := s.x.set xd (big s.cfg.B s.cfg.W (imm % 2 ^ s.cfg.K)), status := s.status.completed } ∧
    exec (.mov xd xa) s = .next { s with x := s.x.set xd (s.words xa), status := s.status.completed }

/-- R123, R126: CMP puts the sign of `val(a) - val(b)` in SRES. -/
def Obligations.CompareResult : Prop :=
  ∀ (s : State) (xa xb : Reg), s.Wf →
    exec (.cmp xa xb) s = .next { s with
      sres := if s.value xa < s.value xb then 0xFFFFFFFF else if s.value xa = s.value xb then 0x00000000 else 0x00000001
      status := s.status.completed }

/-- R124: GETBIT gives bit `imm16` of the value, 0 from bit `K` up. -/
def Obligations.GetbitResult : Prop :=
  ∀ (s : State) (xa : Reg) (imm : Nat), s.Wf →
    exec (.getbit xa imm) s = .next { s with
      sres := if imm < s.cfg.K then BitVec.ofNat 32 (s.value xa / 2 ^ imm % 2) else 0x00000000
      status := s.status.completed }

/-- R125: NBITS gives 0 for the value 0, else one plus the index of the highest set bit, a number in `[0, K]`. -/
def Obligations.NbitsResult : Prop :=
  ∀ (s : State) (xa : Reg), s.Wf →
    ∃ n, exec (.nbits xa) s = .next { s with sres := BitVec.ofNat 32 n, status := s.status.completed } ∧
      n ≤ s.cfg.K ∧ (s.value xa = 0 → n = 0) ∧
      (s.value xa ≠ 0 → 1 ≤ n ∧ bit (s.value xa) (n - 1) = 1 ∧ ∀ i, n ≤ i → bit (s.value xa) i = 0)

/-- R140, R141, R142: SHL1, SHR1, BSHL by value; no flag is written. -/
def Obligations.ShiftResults : Prop :=
  ∀ (s : State) (xd xa : Reg) (imm : Nat), s.Wf →
    exec (.shl1 xd xa) s = .next { s with
      x := s.x.set xd (big s.cfg.B s.cfg.W (2 * s.value xa % 2 ^ s.cfg.K)), status := s.status.completed } ∧
    exec (.shr1 xd xa) s = .next { s with
      x := s.x.set xd (big s.cfg.B s.cfg.W (s.value xa / 2)), status := s.status.completed } ∧
    exec (.bshl xd xa imm) s = .next { s with
      x := s.x.set xd (big s.cfg.B s.cfg.W (s.value xa * 2 ^ (s.cfg.B * imm) % 2 ^ s.cfg.K))
      status := s.status.completed }

/-- R150: ADD writes the wrapped sum, and OVF exactly when the sum needs more than `K` bits. -/
def Obligations.AddResult : Prop :=
  ∀ (s : State) (xd xa xb : Reg), s.Wf →
    exec (.add xd xa xb) s = .next { s with
      x := s.x.set xd (big s.cfg.B s.cfg.W ((s.value xa + s.value xb) % 2 ^ s.cfg.K))
      status := { s.status.completed with ovf := decide (2 ^ s.cfg.K ≤ s.value xa + s.value xb) } }

/-- R152: SUB writes the exact difference when the minuend is not below the subtrahend, and raises Underflow otherwise; OVF
is not written. -/
def Obligations.SubResult : Prop :=
  ∀ (s : State) (xd xa xb : Reg), s.Wf →
    (s.value xb ≤ s.value xa → exec (.sub xd xa xb) s = .next { s with
      x := s.x.set xd (big s.cfg.B s.cfg.W (s.value xa - s.value xb)), status := s.status.completed }) ∧
    (s.value xa < s.value xb → exec (.sub xd xa xb) s = .next { s with
      status := { s.status with busy := false, done := true, err := true, errcode := 2 } })

/-- R161, R160, R165: MUL forms the exact product in `2*W` words, writes its low `W` words, and OVF exactly when the product
needs more than `K` bits. That the exact product is what P holds afterwards, and that no other hidden register moves, is the
model's choice (log 6). -/
def Obligations.MulResult : Prop :=
  ∀ (s : State) (xd xa xb : Reg), s.Wf →
    exec (.mul xd xa xb) s = .next { s with
      x := s.x.set xd (big s.cfg.B s.cfg.W (s.value xa * s.value xb % 2 ^ s.cfg.K))
      status := { s.status.completed with ovf := decide (2 ^ s.cfg.K ≤ s.value xa * s.value xb) }
      hid := { s.hid with p := big s.cfg.B (2 * s.cfg.W) (s.value xa * s.value xb) } }

/-- R174, R228: MOD raises DegenerateModulus for a zero modulus, with no other effect; else it writes the remainder. What the
hidden registers then hold is the model's choice (logs 6, 11): the remainder in REM, the modulus in SM and the least shift
count in KCNT, as the loop of R171 leaves them at the widths of R173, and no other register moved. -/
def Obligations.ModResult : Prop :=
  ∀ (s : State) (xd xa xn : Reg), s.Wf →
    (s.value xn = 0 → exec (.mod xd xa xn) s = .next { s with
      status := { s.status with busy := false, done := true, err := true, errcode := 3 } }) ∧
    (s.value xn ≠ 0 → ∃ k, exec (.mod xd xa xn) s = .next { s with
      x := s.x.set xd (big s.cfg.B s.cfg.W (s.value xa % s.value xn))
      status := s.status.completed
      hid := { s.hid with rem := s.value xa % s.value xn, sm := s.value xn, kcnt := k } } ∧
      s.value xa < s.value xn * 2 ^ k ∧ ∀ j < k, s.value xn * 2 ^ j ≤ s.value xa)

/-- R177, R176, R228: MULMOD raises DegenerateModulus for a zero modulus, with no other effect; else it writes the exact product
reduced. What the hidden registers then hold is the model's choice (log 6): the full product in P and its remainder in REM. -/
def Obligations.MulmodResult : Prop :=
  ∀ (s : State) (xd xa xb xn : Reg), s.Wf →
    (s.value xn = 0 → exec (.mulmod xd xa xb xn) s = .next { s with
      status := { s.status with busy := false, done := true, err := true, errcode := 3 } }) ∧
    (s.value xn ≠ 0 → ∃ h, exec (.mulmod xd xa xb xn) s = .next { s with
      x := s.x.set xd (big s.cfg.B s.cfg.W (s.value xa * s.value xb % s.value xn))
      status := s.status.completed, hid := h } ∧
      val s.cfg.B h.p = s.value xa * s.value xb ∧ h.rem = s.value xa * s.value xb % s.value xn)

/-- R213, R211, R228: BLAK raises DegenerateModulus for a zero modulus, with no other effect; else it gives the same value as
MULMOD, exactly, also for operands not below the modulus. That RB then holds the result is the model's choice (log 6). -/
def Obligations.BlakResult : Prop :=
  ∀ (s : State) (xd xa xb xn : Reg), s.Wf →
    (s.value xn = 0 → exec (.blak xd xa xb xn) s = .next { s with
      status := { s.status with busy := false, done := true, err := true, errcode := 3 } }) ∧
    (s.value xn ≠ 0 → ∃ h, exec (.blak xd xa xb xn) s = .next { s with
      x := s.x.set xd (big s.cfg.B s.cfg.W (s.value xa * s.value xb % s.value xn))
      status := s.status.completed, hid := h } ∧ h.rb = s.value xa * s.value xb % s.value xn)

/-- R186, R187, R188: EXPB and EXPBK write the table's value: 1 for a zero exponent, the base unreduced for exponent 1,
`M^E mod n` above. OVF, SRES and DIG keep their values. -/
def Obligations.BinaryExponentiationResult : Prop :=
  ∀ (s : State) (xd xm xe xn : Reg) (i : Instr), s.Wf → s.value xn ≠ 0 → i ∈ [.expb xd xm xe xn, .expbk xd xm xe xn] →
    ∃ h v, exec i s = .next { s with
      x := s.x.set xd (big s.cfg.B s.cfg.W v), status := s.status.completed, hid := h } ∧ v < 2 ^ s.cfg.K ∧
      (s.value xe = 0 → v = 1) ∧ (s.value xe = 1 → v = s.value xm) ∧
      (2 ≤ s.value xe → v = s.value xm ^ s.value xe % s.value xn)

/-- R199, R200, R201, R227: EXPW and EXPWK write the same table's value, for every window width, and all of DIG with the
digits of the exponent; SRES and OVF keep their values. -/
def Obligations.WindowedExponentiationResult : Prop :=
  ∀ (s : State) (xd xm xe xn : Reg) (i : Instr), s.Wf → s.value xn ≠ 0 → i ∈ [.expw xd xm xe xn, .expwk xd xm xe xn] →
    ∃ h v d, exec i s = .next { s with
      x := s.x.set xd (big s.cfg.B s.cfg.W v), dig := d, status := s.status.completed, hid := h } ∧ v < 2 ^ s.cfg.K ∧
      (s.value xe = 0 → v = 1) ∧ (s.value xe = 1 → v = s.value xm) ∧
      (2 ≤ s.value xe → v = s.value xm ^ s.value xe % s.value xn) ∧
      d.length = s.cfg.dmax ∧ ∀ j < s.cfg.dmax, wordAt d j = s.value xe / 2 ^ (j * s.cfg.r) % 2 ^ s.cfg.r

/-- R195, R196: DECOMP writes all of DIG with the digits, which rebuild the exponent, and the digit count `ceil(k / r)` in
SRES; for a non-zero exponent the top digit is not 0, and every digit above it is. -/
def Obligations.DecompResult : Prop :=
  ∀ (s : State) (xe : Reg), s.Wf →
    ∃ n d, exec (.decomp xe) s = .next { s with
      dig := d, sres := BitVec.ofNat 32 n, status := s.status.completed } ∧
      n = (nbits (s.value xe) + s.cfg.r - 1) / s.cfg.r ∧ n ≤ s.cfg.dmax ∧
      d.length = s.cfg.dmax ∧ (∀ j < s.cfg.dmax, wordAt d j = s.value xe / 2 ^ (j * s.cfg.r) % 2 ^ s.cfg.r) ∧
      val s.cfg.r d = s.value xe ∧ (s.value xe = 0 → n = 0) ∧
      (s.value xe ≠ 0 → 1 ≤ n ∧ wordAt d (n - 1) ≠ 0) ∧ ∀ j, n ≤ j → wordAt d j = 0

/-! ## The document's properties and the datapaths' counts -/

/-- R123: `compare(a,b) == -compare(b,a)` on the register value, and `compare(a,a) == 0`. -/
def Obligations.CompareIsAntisymmetric : Prop :=
  ∀ (s : State) (xa xb : Reg), s.Wf →
    ∃ t u v, exec (.cmp xa xb) s = .next t ∧ exec (.cmp xb xa) s = .next u ∧ exec (.cmp xa xa) s = .next v ∧
      t.sres = -u.sres ∧ v.sres = 0

/-- R152: `add(subtract(a,b), b) == a` for `a ≥ b`, and the ADD ends with OVF = 0. -/
def Obligations.SubThenAddRestores : Prop :=
  ∀ (s : State) (xd xa xb : Reg), s.Wf → s.value xb ≤ s.value xa → xd ≠ xb →
    ∃ t u, exec (.sub xd xa xb) s = .next t ∧ exec (.add xd xd xb) t = .next u ∧
      u.words xd = s.words xa ∧ u.status.ovf = false

/-- R141: `shiftRight1(shiftLeft1(a)) == a` for all `a` whose top bit is 0. -/
def Obligations.ShiftRoundTrip : Prop :=
  ∀ (s : State) (xd xa : Reg), s.Wf → 2 * s.value xa < 2 ^ s.cfg.K →
    ∃ t u, exec (.shl1 xd xa) s = .next t ∧ exec (.shr1 xd xd) t = .next u ∧ u.words xd = s.words xa

/-- R188, R201: for all bases, exponents and non-zero moduli the four exponentiation commands leave the same words in
`x[rd]`. -/
def Obligations.ExponentiationsAgree : Prop :=
  ∀ (s : State) (xd xm xe xn : Reg), s.Wf → s.value xn ≠ 0 →
    ∃ t₁ t₂ t₃ t₄, exec (.expb xd xm xe xn) s = .next t₁ ∧ exec (.expbk xd xm xe xn) s = .next t₂ ∧
      exec (.expw xd xm xe xn) s = .next t₃ ∧ exec (.expwk xd xm xe xn) s = .next t₄ ∧
      t₁.words xd = t₂.words xd ∧ t₂.words xd = t₃.words xd ∧ t₃.words xd = t₄.words xd

/-- R211, R212, R214: with `R < n` before a step no bit is lost in `K + 2` bits, the loop `while R >= n: R = R - n` makes at
most `2 + (b div n)` subtractions (at most 2 when `b < n`) and leaves the step's result; run subtraction by subtraction the
multiplier gives BLAK's value. -/
def Obligations.BlakleyStepsAreRepeatedSubtraction : Prop :=
  ∀ (p : Config.Params) (a b n : Nat), 1 ≤ n → n < 2 ^ p.K → a < 2 ^ p.K → b < 2 ^ p.K →
    (∀ i R, R < n →
      blakleyShiftAdd p a b i R = 2 * R + bit a i * b ∧
      (subtractWhile n (2 + b / n) (blakleyShiftAdd p a b i R)).1 = blakleyStep p a b n i R ∧
      (subtractWhile n (2 + b / n) (blakleyShiftAdd p a b i R)).1 < n ∧
      (∀ fuel, (subtractWhile n fuel (blakleyShiftAdd p a b i R)).2 ≤ 2 + b / n) ∧
      (b < n → ∀ fuel, (subtractWhile n fuel (blakleyShiftAdd p a b i R)).2 ≤ 2)) ∧
    blakleyBySubtraction p a b n p.K 0 = blakley p n a b

/-- R186, R199: how many modular multiplications an exponentiation makes for a non-zero exponent: `nbits(E) - 1` squarings
and one per set bit below the top; `M_ARY - 2` for the table, `(s - 1) * r` squarings and one per non-zero digit below the
top. -/
def Obligations.MultiplicationCounts : Prop :=
  ∀ (p : Config.Params) (mm : Nat → Nat → Nat) (M E : Nat), p.Legal → E ≠ 0 → E < 2 ^ p.K →
    (expBinAllCalls mm M E).length = (nbits E - 1) + ((List.range (nbits E - 1)).filter fun i => bit E i = 1).length ∧
    (expWinAllCalls p mm M E).length = (p.mAry - 2) + (digitCount p E - 1) * p.r +
      ((List.range (digitCount p E - 1)).filter fun i => wordAt (digits p E) i ≠ 0).length
end

