-- ==== Sys2Proof/Laws/Encoding.lean ====
section
/-! SUPPORT. Laws/Encoding.lean: the fields of an encoded word are the fields it was made of (30_encoding.md R91, R92). -/

namespace Sys2Proof

theorem Reg.num_lt (i : Reg) : i.num < 8 := by cases i <;> decide

@[simp] theorem Reg.ofField_num (i : Reg) : Reg.ofField (BitVec.ofNat 3 i.num) = i := by cases i <;> rfl

theorem Reg.ofField_of_toNat {f : BitVec 3} {i : Reg} (h : f.toNat = i.num) : Reg.ofField f = i := by
  rw [← Reg.ofField_num i, ← h, BitVec.ofNat_toNat, BitVec.setWidth_eq]

theorem field_toNat (c : BusWord) (lo len : Nat) : (c.extractLsb' lo len).toNat = c.toNat / 2 ^ lo % 2 ^ len := by
  simp [BitVec.extractLsb'_toNat, Nat.shiftRight_eq_div_pow]

section FormatR

variable {op d a b n : Nat} (hop : op < 256) (hd : d < 8) (ha : a < 8) (hb : b < 8) (hn : n < 8)
include hop hd ha hb hn

theorem formatR_toNat :
    (formatR op d a b n).toNat = op * 2 ^ 24 + d * 2 ^ 21 + a * 2 ^ 18 + b * 2 ^ 15 + n * 2 ^ 12 := by
  rw [formatR, BitVec.toNat_ofNat]; omega

theorem formatR_op : (opField (formatR op d a b n)).toNat = op := by
  rw [opField, field_toNat, formatR_toNat hop hd ha hb hn]; omega

theorem formatR_rd : (rdField (formatR op d a b n)).toNat = d := by
  rw [rdField, field_toNat, formatR_toNat hop hd ha hb hn]; omega

theorem formatR_rs1 : (rs1Field (formatR op d a b n)).toNat = a := by
  rw [rs1Field, field_toNat, formatR_toNat hop hd ha hb hn]; omega

theorem formatR_rs2 : (rs2Field (formatR op d a b n)).toNat = b := by
  rw [rs2Field, field_toNat, formatR_toNat hop hd ha hb hn]; omega

theorem formatR_rs3 : (rs3Field (formatR op d a b n)).toNat = n := by
  rw [rs3Field, field_toNat, formatR_toNat hop hd ha hb hn]; omega

theorem formatR_tail : (tailField (formatR op d a b n)).toNat = 0 := by
  rw [tailField, field_toNat, formatR_toNat hop hd ha hb hn]; omega

end FormatR

section FormatI

variable {op d a imm : Nat} (hop : op < 256) (hd : d < 8) (ha : a < 8) (hi : imm ≤ 65535)
include hop hd ha hi

theorem formatI_toNat : (formatI op d a imm).toNat = op * 2 ^ 24 + d * 2 ^ 21 + a * 2 ^ 18 + imm := by
  rw [formatI, BitVec.toNat_ofNat]; omega

theorem formatI_op : (opField (formatI op d a imm)).toNat = op := by
  rw [opField, field_toNat, formatI_toNat hop hd ha hi]; omega

theorem formatI_rd : (rdField (formatI op d a imm)).toNat = d := by
  rw [rdField, field_toNat, formatI_toNat hop hd ha hi]; omega

theorem formatI_rs1 : (rs1Field (formatI op d a imm)).toNat = a := by
  rw [rs1Field, field_toNat, formatI_toNat hop hd ha hi]; omega

theorem formatI_gap : (gapField (formatI op d a imm)).toNat = 0 := by
  rw [gapField, field_toNat, formatI_toNat hop hd ha hi]; omega

theorem formatI_imm : immField (formatI op d a imm) = imm := by
  rw [immField, field_toNat, formatI_toNat hop hd ha hi]; omega

end FormatI

theorem field_eq_zero {w : Nat} {f : BitVec w} (h : f.toNat = 0) : f = 0#w := by
  exact BitVec.eq_of_toNat_eq (by simpa using h)

/-! ## A word and its fields (R91, R92) -/

theorem whenUnusedZero_ok {zero : Bool} {i j : Instr} : whenUnusedZero zero i = .ok j ↔ zero = true ∧ i = j := by
  cases zero <;> simp [whenUnusedZero]

theorem num_ofField (f : BitVec 3) : (Reg.ofField f).num = f.toNat := by revert f; decide

/-- A word is the sum of its format R fields at their places. -/
theorem word_fieldsR (c : BusWord) :
    c.toNat = (opField c).toNat * 2 ^ 24 + (rdField c).toNat * 2 ^ 21 + (rs1Field c).toNat * 2 ^ 18
      + (rs2Field c).toNat * 2 ^ 15 + (rs3Field c).toNat * 2 ^ 12 + (tailField c).toNat := by
  simp only [opField, rdField, rs1Field, rs2Field, rs3Field, tailField, field_toNat]
  have := c.isLt
  omega

/-- A word is the sum of its format I fields at their places. -/
theorem word_fieldsI (c : BusWord) :
    c.toNat = (opField c).toNat * 2 ^ 24 + (rdField c).toNat * 2 ^ 21 + (rs1Field c).toNat * 2 ^ 18
      + (gapField c).toNat * 2 ^ 16 + immField c := by
  simp only [opField, rdField, rs1Field, gapField, immField, field_toNat]
  have := c.isLt
  omega

theorem immField_le (c : BusWord) : immField c ≤ 65535 := by
  simp only [immField, field_toNat]; omega

theorem word_extR {c d : BusWord} (h : opField c = opField d ∧ rdField c = rdField d ∧ rs1Field c = rs1Field d ∧
    rs2Field c = rs2Field d ∧ rs3Field c = rs3Field d ∧ tailField c = tailField d) : c = d := by
  obtain ⟨h1, h2, h3, h4, h5, h6⟩ := h
  apply BitVec.eq_of_toNat_eq
  rw [word_fieldsR c, word_fieldsR d, h1, h2, h3, h4, h5, h6]

theorem word_extI {c d : BusWord} (h : opField c = opField d ∧ rdField c = rdField d ∧ rs1Field c = rs1Field d ∧
    gapField c = gapField d ∧ immField c = immField d) : c = d := by
  obtain ⟨h1, h2, h3, h4, h5⟩ := h
  apply BitVec.eq_of_toNat_eq
  rw [word_fieldsI c, word_fieldsI d, h1, h2, h3, h4, h5]

/-- Masking a word masks each of its fields. -/
theorem field_and (c d : BusWord) (lo len : Nat) :
    (c &&& d).extractLsb' lo len = c.extractLsb' lo len &&& d.extractLsb' lo len := by
  ext i hi; simp

end Sys2Proof
end

