-- ==== Sys2Proof/Laws/Words.lean ====
section
/-! SUPPORT. Laws/Words.lean: word arrays and their values, one lemma per operation of Machine/Operands.lean and per
word loop of the shifts, the comparator, the adder, the subtractor and the multiplier. -/

namespace Sys2Proof.Machine

open Sys2Proof.Config (Params)

/-- Every word of an array is in `[0, 2^B)`. -/
abbrev Bounded (B : Nat) (ws : Words) : Prop := ∀ w ∈ ws, w < 2 ^ B

theorem bounded_cons {B w : Nat} {ws : Words} (h : Bounded B (w :: ws)) : w < 2 ^ B ∧ Bounded B ws :=
  ⟨h w List.mem_cons_self, fun v hv => h v (List.mem_cons_of_mem _ hv)⟩

@[simp] theorem val_nil (B : Nat) : val B [] = 0 := rfl

@[simp] theorem val_cons (B w : Nat) (ws : Words) : val B (w :: ws) = w + 2 ^ B * val B ws := rfl

@[simp] theorem length_big (B N v : Nat) : (big B N v).length = N := by
  induction N generalizing v with
  | zero => rfl
  | succ N ih => simp [big, ih]

theorem bounded_big (B N v : Nat) : Bounded B (big B N v) := by
  induction N generalizing v with
  | zero => intro w hw; simp [big] at hw
  | succ N ih =>
    intro w hw
    rcases List.mem_cons.1 hw with rfl | hw
    · exact Nat.mod_lt _ (by positivity)
    · exact ih _ w hw

theorem pow_mul_succ (B N : Nat) : 2 ^ (B * (N + 1)) = 2 ^ B * 2 ^ (B * N) := by
  rw [Nat.mul_succ, Nat.add_comm, Nat.pow_add]

/-- `val(big(v)) = v mod 2^(B*N)` (00_scope.md R11). -/
theorem val_big (B N v : Nat) : val B (big B N v) = v % 2 ^ (B * N) := by
  induction N generalizing v with
  | zero => simp [big, Nat.mod_one]
  | succ N ih => rw [big, val_cons, ih, trunc, pow_mul_succ, Nat.mod_mul]

/-- The semantic value as the spec writes it, `Σ word[j]·2^(B·j)` (00_scope.md R11). -/
theorem val_eq_sum (B : Nat) (ws : Words) :
    val B ws = ((List.range ws.length).map fun j => wordAt ws j * 2 ^ (B * j)).sum := by
  induction ws with
  | nil => rfl
  | cons w ws ih =>
    rw [val_cons, ih, List.length_cons, List.range_succ_eq_map, List.map_cons, List.sum_cons, List.map_map,
      ← List.sum_map_mul_left]
    congr 1
    · simp [wordAt]
    · congr 1
      apply List.map_congr_left
      intro j _
      simp only [Function.comp_apply, pow_mul_succ, wordAt, List.getD_cons_succ]
      ring

theorem val_lt {B : Nat} {ws : Words} (h : Bounded B ws) : val B ws < 2 ^ (B * ws.length) := by
  induction ws with
  | nil => simp
  | cons w ws ih =>
    obtain ⟨hw, hs⟩ := bounded_cons h
    have := ih hs
    rw [List.length_cons, pow_mul_succ, val_cons]
    calc w + 2 ^ B * val B ws < 2 ^ B + 2 ^ B * val B ws := by omega
      _ = 2 ^ B * (val B ws + 1) := by ring
      _ ≤ 2 ^ B * 2 ^ (B * ws.length) := Nat.mul_le_mul_left _ this

/-- `big(val(ws)) = ws`: the map between word arrays and values is a bijection (00_scope.md R11). -/
theorem big_val {B : Nat} {ws : Words} (h : Bounded B ws) : big B ws.length (val B ws) = ws := by
  induction ws with
  | nil => rfl
  | cons w ws ih =>
    obtain ⟨hw, hs⟩ := bounded_cons h
    have h1 : (w + 2 ^ B * val B ws) % 2 ^ B = w := by
      rw [Nat.add_mul_mod_self_left, Nat.mod_eq_of_lt hw]
    have h2 : (w + 2 ^ B * val B ws) / 2 ^ B = val B ws := by
      rw [Nat.add_mul_div_left _ _ (by positivity), Nat.div_eq_of_lt hw, Nat.zero_add]
    simp [big, trunc, h1, h2, ih hs]

/-- `big` forgets everything from bit `B*N` up. -/
theorem big_mod (B N v : Nat) : big B N (v % 2 ^ (B * N)) = big B N v := by
  have := big_val (bounded_big B N v)
  rwa [length_big, val_big] at this

/-- Word `j` of `big(v)` is `(v div 2^(B*j)) mod 2^B` (00_scope.md R11). -/
theorem wordAt_big (B N v j : Nat) (h : j < N) : wordAt (big B N v) j = v / 2 ^ (B * j) % 2 ^ B := by
  induction N generalizing v j with
  | zero => omega
  | succ N ih =>
    cases j with
    | zero => simp [big, wordAt, trunc]
    | succ j =>
      have := ih (v / 2 ^ B) j (by omega)
      rw [pow_mul_succ, ← Nat.div_div_eq_div_mul]
      simpa [big, wordAt] using this

theorem big_zero (B N : Nat) : big B N 0 = List.replicate N 0 := by
  induction N with
  | zero => rfl
  | succ N ih => simp [big, trunc, ih, List.replicate_succ]

@[simp] theorem val_replicate_zero (B N : Nat) : val B (List.replicate N 0) = 0 := by
  induction N with
  | zero => rfl
  | succ N ih => simp [List.replicate_succ, ih]

/-! ## The adder and the subtractor (42_add_sub.md R151, R153) -/

theorem addWords_fst (B : Nat) (a b : Words) (c : Nat) (h : a.length = b.length) :
    (addWords B a b c).1 = big B a.length (val B a + val B b + c) := by
  induction a generalizing b c with
  | nil => cases b <;> simp [addWords, big]
  | cons x a ih =>
    cases b with
    | nil => simp at h
    | cons y b =>
      have hab : a.length = b.length := by simpa using h
      have e : x + 2 ^ B * val B a + (y + 2 ^ B * val B b) + c = (x + y + c) + 2 ^ B * (val B a + val B b) := by ring
      have hd : (x + 2 ^ B * val B a + (y + 2 ^ B * val B b) + c) / 2 ^ B
          = val B a + val B b + (x + y + c) / 2 ^ B := by
        rw [e, Nat.add_mul_div_left _ _ (by positivity), Nat.add_comm]
      simp only [addWords, List.length_cons, big, val_cons, ih b _ hab, hd]
      rw [e, trunc, trunc, Nat.add_mul_mod_self_left]

theorem addWords_snd (B : Nat) (a b : Words) (c : Nat) (h : a.length = b.length) :
    (addWords B a b c).2 = (val B a + val B b + c) / 2 ^ (B * a.length) := by
  induction a generalizing b c with
  | nil =>
    obtain rfl : b = [] := List.length_eq_zero_iff.1 h.symm
    simp [addWords]
  | cons x a ih =>
    cases b with
    | nil => simp at h
    | cons y b =>
      have hab : a.length = b.length := by simpa using h
      have e : x + 2 ^ B * val B a + (y + 2 ^ B * val B b) + c = (x + y + c) + 2 ^ B * (val B a + val B b) := by ring
      simp only [addWords, List.length_cons, val_cons, ih b _ hab]
      rw [e, pow_mul_succ, ← Nat.div_div_eq_div_mul, Nat.add_mul_div_left _ _ (by positivity)]
      congr 1; omega

/-- Without a borrow, `SubW` gives the difference (42_add_sub.md R153). -/
theorem subWords_spec {B : Nat} {a b : Words} (w : Nat) (hw : w ≤ 1) (h : a.length = b.length)
    (ha : Bounded B a) (hb : Bounded B b) :
    (subWords B a b w).1.length = a.length ∧ Bounded B (subWords B a b w).1 ∧ (subWords B a b w).2 ≤ 1 ∧
    val B (subWords B a b w).1 + val B b + w = val B a + (subWords B a b w).2 * 2 ^ (B * a.length) := by
  induction a generalizing b w with
  | nil =>
    obtain rfl : b = [] := List.length_eq_zero_iff.1 h.symm
    simp only [subWords]
    exact ⟨trivial, ha, hw, by simp⟩
  | cons x a ih =>
    cases b with
    | nil => simp at h
    | cons y b =>
      obtain ⟨hx, ha⟩ := bounded_cons ha
      obtain ⟨hy, hb⟩ := bounded_cons hb
      have hab : a.length = b.length := by simpa using h
      have hP : (((2 ^ B : Nat) : Int)) = (2 : Int) ^ B := by norm_cast
      set below := decide ((x : Int) - y - w < 0) with hbel
      set d := (if below then (x : Int) - y - w + 2 ^ B else (x : Int) - y - w).toNat with hd
      have hlt : d < 2 ^ B ∧ d + y + w = x + below.toNat * 2 ^ B := by
        by_cases hc : (x : Int) - y - w < 0
        · have : below = true := by simpa [hbel] using hc
          rw [hd, this, ← hP]; simp only [if_true, Bool.toNat_true]; omega
        · have : below = false := by simpa [hbel] using hc
          rw [hd, this]; simp only [Bool.toNat_false]; simp; omega
      obtain ⟨l, bd, b1, e⟩ := ih below.toNat (Bool.toNat_le below) hab ha hb
      have hrec : subWords B (x :: a) (y :: b) w
          = (d :: (subWords B a b below.toNat).1, (subWords B a b below.toNat).2) := rfl
      refine ⟨by simp [hrec, l], ?_, by simpa [hrec] using b1, ?_⟩
      · intro v hv
        rw [hrec] at hv
        rcases List.mem_cons.1 hv with rfl | hv
        · exact hlt.1
        · exact bd v hv
      · rw [hrec, List.length_cons, pow_mul_succ]
        simp only [val_cons]
        have : 2 ^ B * (val B (subWords B a b below.toNat).1 + val B b + below.toNat)
            = 2 ^ B * (val B a + (subWords B a b below.toNat).2 * 2 ^ (B * a.length)) := by rw [e]
        nlinarith [hlt.2]

/-! ## The comparator (40_construct_compare_bits.md R123) -/

/-- `Cmp` is the sign of the difference of the values (R123, R126). -/
theorem cmpWords_eq {B : Nat} {a b : Words} (h : a.length = b.length) (ha : Bounded B a) (hb : Bounded B b) :
    cmpWords a b = if val B a < val B b then -1 else if val B a = val B b then 0 else 1 := by
  induction a generalizing b with
  | nil => cases b <;> simp_all [cmpWords]
  | cons x a ih =>
    cases b with
    | nil => simp at h
    | cons y b =>
      obtain ⟨hx, ha⟩ := bounded_cons ha
      obtain ⟨hy, hb⟩ := bounded_cons hb
      have hab : a.length = b.length := by simpa using h
      have hmul (m n : Nat) (hmn : m < n) : 2 ^ B * m + 2 ^ B ≤ 2 ^ B * n := by
        calc 2 ^ B * m + 2 ^ B = 2 ^ B * (m + 1) := by ring
          _ ≤ 2 ^ B * n := Nat.mul_le_mul_left _ hmn
      rw [cmpWords, ih hab ha hb]
      simp only [val_cons]
      rcases Nat.lt_trichotomy (val B a) (val B b) with hlt | heq | hgt
      · have := hmul _ _ hlt
        have h1 : x + 2 ^ B * val B a < y + 2 ^ B * val B b := by omega
        simp [hlt, h1]
      · rcases Nat.lt_trichotomy x y with h1 | h1 | h1
        · have h2 : ¬ x = y := by omega
          have h3 : ¬ x > y := by omega
          simp [heq, h1, h2, h3]
        · simp [heq, h1]
        · have h2 : ¬ x = y := by omega
          have h3 : ¬ x < y := by omega
          simp [heq, h1, h2, h3]
      · have := hmul _ _ hgt
        have h0 : ¬ val B a < val B b := by omega
        have h0' : ¬ val B a = val B b := by omega
        have h1 : ¬ x + 2 ^ B * val B a < y + 2 ^ B * val B b := by omega
        have h2 : ¬ x + 2 ^ B * val B a = y + 2 ^ B * val B b := by omega
        simp [h0, h0', h1, h2]

/-! ## The shifts (41_shifts.md R140 to R142) -/

theorem shl1Words_eq {B : Nat} (hB : 1 ≤ B) {v : Words} (low : Nat) (hl : low ≤ 1) (hv : Bounded B v) :
    shl1Words B v low = big B v.length (2 * val B v + low) := by
  induction v generalizing low with
  | nil => rfl
  | cons w v ih =>
    obtain ⟨hw, hv⟩ := bounded_cons hv
    have hp : 2 ^ B = 2 ^ (B - 1) * 2 := by rw [← Nat.pow_succ]; congr 1; omega
    have hq : w / 2 ^ (B - 1) ≤ 1 := by
      have : w / 2 ^ (B - 1) < 2 := by rw [Nat.div_lt_iff_lt_mul (by positivity)]; omega
      omega
    have hdm : 2 ^ (B - 1) * (w / 2 ^ (B - 1)) + w % 2 ^ (B - 1) = w := Nat.div_add_mod _ _
    have hm : w % 2 ^ (B - 1) < 2 ^ (B - 1) := Nat.mod_lt _ (by positivity)
    have ht : w * 2 % 2 ^ B = w % 2 ^ (B - 1) * 2 := by rw [hp, Nat.mul_mod_mul_right]
    have e : 2 * (w + 2 ^ B * val B v) + low
        = (w % 2 ^ (B - 1) * 2 + low) + 2 ^ B * (2 * val B v + w / 2 ^ (B - 1)) := by
      rw [hp]; nlinarith
    have hsmall : w % 2 ^ (B - 1) * 2 + low < 2 ^ B := by omega
    simp only [shl1Words, List.length_cons, big, val_cons, ih _ hq hv, trunc, ht]
    rw [e, Nat.add_mul_mod_self_left, Nat.mod_eq_of_lt hsmall, Nat.add_mul_div_left _ _ (by positivity),
      Nat.div_eq_of_lt hsmall, Nat.zero_add]

theorem wordAt_zero_mod_two {B : Nat} (hB : 1 ≤ B) (ws : Words) : wordAt ws 0 % 2 = val B ws % 2 := by
  cases ws with
  | nil => rfl
  | cons w ws =>
    have hp : 2 ^ B = 2 * 2 ^ (B - 1) := by rw [← Nat.pow_succ']; congr 1; omega
    simp [wordAt, hp, Nat.mul_assoc, Nat.add_mul_mod_self_left]

theorem shr1Words_eq {B : Nat} (hB : 1 ≤ B) {v : Words} (hv : Bounded B v) :
    shr1Words B v = big B v.length (val B v / 2) := by
  induction v with
  | nil => rfl
  | cons w v ih =>
    obtain ⟨hw, hv⟩ := bounded_cons hv
    have hp : 2 ^ B = 2 * 2 ^ (B - 1) := by rw [← Nat.pow_succ']; congr 1; omega
    have hm : val B v % 2 < 2 := Nat.mod_lt _ (by norm_num)
    have e : (w + 2 ^ B * val B v) / 2 = (w / 2 + val B v % 2 * 2 ^ (B - 1)) + 2 ^ B * (val B v / 2) := by
      have h1 : w + 2 ^ B * val B v = w + 2 * (2 ^ (B - 1) * val B v) := by rw [hp]; ring
      have h2 : 2 ^ (B - 1) * val B v = 2 ^ (B - 1) * (2 * (val B v / 2)) + 2 ^ (B - 1) * (val B v % 2) := by
        rw [← Nat.mul_add, Nat.div_add_mod]
      rw [h1, Nat.add_mul_div_left _ _ (by norm_num), h2, hp]; ring
    have hsmall : w / 2 + val B v % 2 * 2 ^ (B - 1) < 2 ^ B := by
      have : val B v % 2 * 2 ^ (B - 1) ≤ 1 * 2 ^ (B - 1) := Nat.mul_le_mul_right _ (by omega)
      omega
    simp only [shr1Words, List.length_cons, big, val_cons, ih hv, wordAt_zero_mod_two hB, trunc]
    rw [e, Nat.add_mul_mod_self_left, Nat.mod_eq_of_lt hsmall, Nat.add_mul_div_left _ _ (by positivity),
      Nat.div_eq_of_lt hsmall, Nat.zero_add]

/-- Word arrays of one length with equal words are equal. -/
theorem words_ext {a b : Words} (hl : a.length = b.length) (h : ∀ j, j < a.length → wordAt a j = wordAt b j) :
    a = b := by
  apply List.ext_getElem hl
  intro j h1 h2
  have := h j h1
  rwa [wordAt, wordAt, List.getD_eq_getElem _ _ h1, List.getD_eq_getElem _ _ h2] at this

theorem length_bshlWords (W : Nat) (v : Words) (m : Nat) : (bshlWords W v m).length = W := by simp [bshlWords]

theorem wordAt_bshlWords {W m j : Nat} {v : Words} (hj : j < W) :
    wordAt (bshlWords W v m) j = if m ≤ j then wordAt v (j - m) else 0 := by
  have h : j < (bshlWords W v m).length := by rwa [length_bshlWords]
  rw [wordAt, List.getD_eq_getElem _ _ h]
  simp [bshlWords]

theorem bshlWords_eq {B : Nat} {v : Words} (m : Nat) (hv : Bounded B v) :
    bshlWords v.length v m = big B v.length (val B v * 2 ^ (B * m)) := by
  apply words_ext (by simp [length_bshlWords])
  intro j hj
  rw [length_bshlWords] at hj
  rw [wordAt_bshlWords hj, wordAt_big _ _ _ _ hj]
  split
  · next hmj =>
    have e : B * j = B * m + B * (j - m) := by rw [← Nat.mul_add]; congr 1; omega
    rw [e, Nat.pow_add, ← Nat.div_div_eq_div_mul, Nat.mul_div_cancel _ (by positivity)]
    conv_lhs => rw [← big_val hv]
    rw [wordAt_big _ _ _ _ (by omega)]
  · next hmj =>
    have e : B * m = B * j + B * (m - j) := by rw [← Nat.mul_add]; congr 1; omega
    have hpos : B * (m - j) = B + B * (m - j - 1) := by
      obtain ⟨q, hq⟩ : ∃ q, m - j = q + 1 := ⟨m - j - 1, by omega⟩
      rw [hq, Nat.add_sub_cancel]; ring
    rw [e, Nat.pow_add, Nat.mul_comm (2 ^ (B * j)), ← Nat.mul_assoc, Nat.mul_div_cancel _ (by positivity), hpos,
      Nat.pow_add, Nat.mul_comm (2 ^ B), ← Nat.mul_assoc, Nat.mul_mod_left]

end Sys2Proof.Machine
end

