-- ==== Sys2Proof/Laws/Product.lean ====
section
/-! SUPPORT. Laws/Product.lean: the schoolbook multiplier forms the exact product in `2*W` words (43_multiply.md R160,
R165). -/

namespace Sys2Proof.Machine

open Sys2Proof.Config (Params)

theorem row_term_lt {B p ai b c : Nat} (hp : p < 2 ^ B) (ha : ai < 2 ^ B) (hb : b < 2 ^ B) (hc : c < 2 ^ B) :
    (p + ai * b + c) / 2 ^ B < 2 ^ B := by
  rw [Nat.div_lt_iff_lt_mul (by positivity)]
  obtain ⟨q, hq⟩ : ∃ q, 2 ^ B = q + 1 := ⟨2 ^ B - 1, by have := Nat.one_le_two_pow (n := B); omega⟩
  rw [hq] at hp ha hb hc ⊢
  have : ai * b ≤ q * q := Nat.mul_le_mul (by omega) (by omega)
  nlinarith

/-- One row adds `ai * val(b) + c` into the scratch words, whose word after the row is still 0. -/
theorem mulRow_spec {B ai : Nat} (ha : ai < 2 ^ B) {P b : Words} {c : Nat} (hl : b.length < P.length)
    (hz : wordAt P b.length = 0) (hP : Bounded B P) (hb : Bounded B b) (hc : c < 2 ^ B) :
    (mulRow B ai P b c).length = P.length ∧ Bounded B (mulRow B ai P b c) ∧
    val B (mulRow B ai P b c) = val B P + ai * val B b + c ∧
    ∀ j, b.length < j → wordAt (mulRow B ai P b c) j = wordAt P j := by
  induction P generalizing b c with
  | nil => simp at hl
  | cons p P ih =>
    obtain ⟨hp, hP⟩ := bounded_cons hP
    cases b with
    | nil =>
      have hp0 : p = 0 := by simpa [wordAt] using hz
      refine ⟨rfl, ?_, by simp [mulRow, hp0, Nat.add_comm], ?_⟩
      · intro w hw
        rcases List.mem_cons.1 hw with rfl | hw
        · exact hc
        · exact hP w hw
      · intro j hj
        cases j with
        | zero => simp at hj
        | succ j => simp [mulRow, wordAt]
    | cons y b =>
      obtain ⟨hy, hb⟩ := bounded_cons hb
      have hdm := Nat.mod_add_div (p + ai * y + c) (2 ^ B)
      have hm : (p + ai * y + c) % 2 ^ B < 2 ^ B := Nat.mod_lt _ (by positivity)
      obtain ⟨l, bd, v, w⟩ := ih (by simpa using hl) (by simpa [wordAt] using hz) hP hb (row_term_lt hp ha hy hc)
      refine ⟨by simp [mulRow, l], ?_, ?_, ?_⟩
      · intro w hw
        rcases List.mem_cons.1 hw with rfl | hw
        · exact hm
        · exact bd w hw
      · simp only [mulRow, val_cons, v, trunc]
        nlinarith
      · intro j hj
        cases j with
        | zero => simp at hj
        | succ j => simpa [mulRow, wordAt] using w j (by simpa using hj)

theorem mulRows_spec {B : Nat} {a b P : Words} (hl : P.length = a.length + b.length)
    (hz : ∀ j, b.length ≤ j → wordAt P j = 0) (ha : Bounded B a) (hP : Bounded B P) (hb : Bounded B b) :
    (mulRows B a b P).length = P.length ∧ Bounded B (mulRows B a b P) ∧
    val B (mulRows B a b P) = val B P + val B a * val B b := by
  induction a generalizing P with
  | nil => exact ⟨rfl, hP, by simp [mulRows]⟩
  | cons x a ih =>
    obtain ⟨hx, ha⟩ := bounded_cons ha
    rw [List.length_cons] at hl
    obtain ⟨l, bd, v, w⟩ := mulRow_spec (c := 0) hx (by omega) (hz _ le_rfl) hP hb (by positivity)
    obtain ⟨p, P', hr⟩ : ∃ p P', mulRow B x P b 0 = p :: P' := List.exists_cons_of_length_pos (by omega)
    rw [hr] at l bd v w
    obtain ⟨hp, hP'⟩ := bounded_cons bd
    obtain ⟨l', bd', v'⟩ := ih (P := P') (by simp only [List.length_cons] at l; omega)
      (fun j hj => by
        have := w (j + 1) (by omega)
        rw [hz _ (by omega)] at this
        simpa [wordAt] using this)
      ha hP'
    have e : mulRows B (x :: a) b P = p :: mulRows B a b P' := by simp [mulRows, hr]
    rw [e]
    refine ⟨by simp only [List.length_cons] at l ⊢; omega, ?_, ?_⟩
    · intro u hu
      rcases List.mem_cons.1 hu with rfl | hu
      · exact hp
      · exact bd' u hu
    · simp only [val_cons] at v ⊢
      rw [v']
      nlinarith

/-- `Mul(a, b)`: `2*W` words in range whose value is the exact product (43_multiply.md R160). -/
theorem mulWords_spec {B W : Nat} {a b : Words} (ha : a.length = W) (hb : b.length = W) (ba : Bounded B a)
    (bb : Bounded B b) :
    (mulWords B W a b).length = 2 * W ∧ Bounded B (mulWords B W a b) ∧
    val B (mulWords B W a b) = val B a * val B b := by
  have h := mulRows_spec (B := B) (a := a) (b := b) (P := List.replicate (2 * W) 0) (by simp; omega)
    (fun j _ => by simp only [wordAt, List.getD_eq_getElem?_getD, List.getElem?_replicate]; split <;> rfl) ba
    (fun w hw => by rw [List.eq_of_mem_replicate hw]; positivity) bb
  simpa [mulWords] using h

theorem big_take (B N M v : Nat) (h : N ≤ M) : (big B M v).take N = big B N v := by
  induction N generalizing M v with
  | zero => rfl
  | succ N ih =>
    obtain ⟨M, rfl⟩ : ∃ k, M = k + 1 := ⟨M - 1, by omega⟩
    simp [big, ih M _ (by omega)]

theorem big_drop (B N M v : Nat) : (big B (N + M) v).drop N = big B M (v / 2 ^ (B * N)) := by
  induction N generalizing v with
  | zero => simp
  | succ N ih =>
    rw [Nat.add_right_comm, big, List.drop_succ_cons, ih, Nat.div_div_eq_div_mul, pow_mul_succ]

theorem val_eq_zero_iff {B : Nat} {ws : Words} : val B ws = 0 ↔ ∀ w ∈ ws, w = 0 := by
  induction ws with
  | nil => simp
  | cons w ws ih => simp [ih]

/-- The upper half of a `2*W`-word array is not all zero exactly when its value needs more than `W` words
(43_multiply.md R161). -/
theorem upperNotZero_eq {B W : Nat} {P : Words} (hl : P.length = 2 * W) (hP : Bounded B P) :
    upperNotZero W P = decide (2 ^ (B * W) ≤ val B P) := by
  have e := big_val hP
  rw [hl, two_mul] at e
  have hd : P.drop W = big B W (val B P / 2 ^ (B * W)) := by
    conv_lhs => rw [← e]
    exact big_drop _ _ _ _
  have hlt : val B P / 2 ^ (B * W) < 2 ^ (B * W) := by
    rw [Nat.div_lt_iff_lt_mul (by positivity), ← Nat.pow_add, ← Nat.mul_add, ← two_mul, ← hl]
    exact val_lt hP
  have hv : val B (P.drop W) = val B P / 2 ^ (B * W) := by rw [hd, val_big, Nat.mod_eq_of_lt hlt]
  rw [Bool.eq_iff_iff, decide_eq_true_iff, upperNotZero, List.any_eq_true]
  constructor
  · rintro ⟨w, hw, hne⟩
    by_contra hlt'
    have h0 : val B (P.drop W) = 0 := by rw [hv, Nat.div_eq_of_lt (by omega)]
    simp [val_eq_zero_iff.1 h0 w hw] at hne
  · intro hle
    by_contra hall
    have h0 : val B (P.drop W) = 0 := by
      rw [val_eq_zero_iff]
      intro w hw
      by_contra hne
      exact hall ⟨w, hw, by simpa using hne⟩
    rw [hv, Nat.div_eq_zero_iff] at h0
    rcases h0 with h0 | h0
    · exact absurd h0 (by positivity)
    · omega

/-- The full product of two register values (44_mod_mulmod.md R176). -/
theorem productValue_eq {p : Params} {a b : Nat} (ha : a < 2 ^ p.K) (hb : b < 2 ^ p.K) :
    productValue p a b = a * b := by
  have h := mulWords_spec (B := p.B) (length_big p.B p.W a) (length_big p.B p.W b) (bounded_big _ _ _)
    (bounded_big _ _ _)
  rw [productValue, h.2.2, val_big, val_big]
  exact congrArg₂ _ (Nat.mod_eq_of_lt ha) (Nat.mod_eq_of_lt hb)

end Sys2Proof.Machine
end

