-- ==== Sys2Proof/Laws/Modular.lean ====
section
/-! SUPPORT. Laws/Modular.lean: the reduction loop, the Blakley multiplier and the two exponentiation methods compute the
values their rules give (44_mod_mulmod.md R171, 47_blakley.md R211, 45_exp_binary.md R188, 46_exp_windowed.md R201). -/

namespace Sys2Proof.Machine

open Sys2Proof.Config (Params)

/-! ## The reduction unit -/

/-- Alignment stops at the least `k` with `n * 2^k > a` and loses no bit (44_mod_mulmod.md R171, R173). -/
theorem align_spec {p : Params} {a n : Nat} (ha : a < 2 ^ (2 * p.K)) (hn : 1 ≤ n) (fuel k : Nat)
    (hf : fuel + k = 2 * p.K + 1) (hk : k = 0 ∨ n * 2 ^ (k - 1) ≤ a) :
    ∃ k', align p a fuel (n * 2 ^ k) k = (n * 2 ^ k', k') ∧ a < n * 2 ^ k' ∧ (k' = 0 ∨ n * 2 ^ (k' - 1) ≤ a) := by
  have hbound : k ≤ 2 * p.K := by
    rcases hk with rfl | hk
    · omega
    · have h1 : 2 ^ (k - 1) ≤ n * 2 ^ (k - 1) := Nat.le_mul_of_pos_left _ hn
      have h2 : 2 ^ (k - 1) < 2 ^ (2 * p.K) := by omega
      have := (Nat.pow_lt_pow_iff_right (by norm_num : 1 < 2)).1 h2
      omega
  induction fuel generalizing k with
  | zero => omega
  | succ fuel ih =>
    rw [align]
    split
    · next hle =>
      have ht : trunc (2 * p.K + 1) (n * 2 ^ k * 2) = n * 2 ^ (k + 1) := by
        rw [trunc, Nat.mod_eq_of_lt (by rw [Nat.pow_succ]; omega), Nat.pow_succ, Nat.mul_assoc]
      rw [ht]
      refine ih (k + 1) (by omega) (Or.inr (by simpa using hle)) ?_
      have h1 : 2 ^ k ≤ n * 2 ^ k := Nat.le_mul_of_pos_left _ hn
      have h2 : 2 ^ k < 2 ^ (2 * p.K) := by omega
      have := (Nat.pow_lt_pow_iff_right (by norm_num : 1 < 2)).1 h2
      omega
    · next hgt => exact ⟨k, rfl, by omega, hk⟩

/-- The `k` steps leave the remainder in REM and the modulus in SM (44_mod_mulmod.md R171). -/
theorem reduceSteps_spec {n : Nat} (k rem : Nat) (h : rem < n * 2 ^ k) :
    reduceSteps k rem (n * 2 ^ k) = (rem % n, n) := by
  induction k generalizing rem with
  | zero => simp [reduceSteps, Nat.mod_eq_of_lt (by simpa using h : rem < n)]
  | succ k ih =>
    have e : n * 2 ^ (k + 1) / 2 = n * 2 ^ k := by
      rw [Nat.pow_succ, ← Nat.mul_assoc, Nat.mul_div_cancel _ (by norm_num)]
    have e2 : n * 2 ^ (k + 1) = 2 * (n * 2 ^ k) := by rw [Nat.pow_succ]; ring
    rw [reduceSteps]
    simp only [e]
    split
    · next hle =>
      rw [ih _ (by omega)]
      congr 1
      conv_rhs => rw [← Nat.sub_add_cancel hle, Nat.add_mul_mod_self_left]
    · next hgt => exact ih _ (by omega)

/-- The loop of R171 returns `a mod n`, for every dividend below `2^(2K)` and every `n ≥ 1` (44_mod_mulmod.md R173),
with the least shift count (R172). -/
theorem reduceLoop_spec {p : Params} {a n : Nat} (ha : a < 2 ^ (2 * p.K)) (hn : 1 ≤ n) :
    ∃ k, reduceLoop p a n = ⟨a % n, n, k⟩ ∧ a < n * 2 ^ k ∧ (k = 0 ∨ n * 2 ^ (k - 1) ≤ a) ∧ k ≤ 2 * p.K := by
  obtain ⟨k, e, h1, h2⟩ := align_spec ha hn (2 * p.K + 1) 0 (by omega) (Or.inl rfl)
  rw [Nat.pow_zero, Nat.mul_one] at e
  refine ⟨k, ?_, h1, h2, ?_⟩
  · rw [reduceLoop, e]
    simp only [reduceSteps_spec k a h1]
  · rcases h2 with rfl | h2
    · omega
    · have h3 : 2 ^ (k - 1) ≤ n * 2 ^ (k - 1) := Nat.le_mul_of_pos_left _ hn
      have h4 : 2 ^ (k - 1) < 2 ^ (2 * p.K) := by omega
      have := (Nat.pow_lt_pow_iff_right (by norm_num : 1 < 2)).1 h4
      omega

/-- Multiply then reduce is the exact modular product (44_mod_mulmod.md R176). -/
theorem mulMod_eq {p : Params} {n a b : Nat} (ha : a < 2 ^ p.K) (hb : b < 2 ^ p.K) :
    mulMod p n a b = a * b % n := by rw [mulMod, productValue_eq ha hb, modValue]

/-! ## The Blakley multiplier -/

theorem bit_le_one (v i : Nat) : bit v i ≤ 1 := by unfold bit; omega

/-- The shift and the addition lose no bit in `K + 2` bits (47_blakley.md R212). -/
theorem blakleyShiftAdd_eq {p : Params} {a b n i R : Nat} (hn : n < 2 ^ p.K) (hb : b < 2 ^ p.K) (hR : R < n) :
    blakleyShiftAdd p a b i R = 2 * R + bit a i * b := by
  have e : 2 ^ (p.K + 2) = 4 * 2 ^ p.K := by rw [Nat.pow_add]; ring
  have h1 : R * 2 % 2 ^ (p.K + 2) = 2 * R := by rw [Nat.mod_eq_of_lt (by omega)]; ring
  simp only [blakleyShiftAdd, trunc, h1]
  split
  · next h => rw [h, Nat.mod_eq_of_lt (by omega)]; ring
  · next h => have := bit_le_one a i; rw [show bit a i = 0 by omega]; ring

theorem div_pow_bit (a i : Nat) : a / 2 ^ i = 2 * (a / 2 ^ (i + 1)) + bit a i := by
  rw [Nat.pow_succ, ← Nat.div_div_eq_div_mul, bit]
  omega

theorem blakleyLoop_eq {p : Params} {a b n : Nat} (hn0 : 1 ≤ n) (hn : n < 2 ^ p.K) (hb : b < 2 ^ p.K) (i : Nat) :
    blakleyLoop p a b n i (a / 2 ^ i * b % n) = a * b % n := by
  induction i with
  | zero => simp [blakleyLoop]
  | succ i ih =>
    rw [blakleyLoop, blakleyStep, blakleyShiftAdd_eq hn hb (Nat.mod_lt _ hn0), ← ih]
    congr 1
    rw [div_pow_bit a i, Nat.add_mul, Nat.mul_assoc, ← Nat.mod_add_mod, ← Nat.mul_mod_mod, Nat.mod_add_mod]
    simp [Nat.add_mod, Nat.mul_mod]

/-- `Blakley(a, b, n) = (a * b) mod n`, exactly, also for `a`, `b` not below `n` (47_blakley.md R211). -/
theorem blakley_eq {p : Params} {n a b : Nat} (hn0 : 1 ≤ n) (hn : n < 2 ^ p.K) (ha : a < 2 ^ p.K)
    (hb : b < 2 ^ p.K) : blakley p n a b = a * b % n := by
  have h := blakleyLoop_eq (p := p) (a := a) hn0 hn hb p.K
  rwa [Nat.div_eq_of_lt ha, Nat.zero_mul, Nat.zero_mod] at h

/-- `while R >= n: R = R - n` is the remainder, after `R div n` subtractions (47_blakley.md R211, R214). -/
theorem subtractWhile_eq {n : Nat} (hn : 1 ≤ n) (fuel R : Nat) (h : R / n ≤ fuel) :
    subtractWhile n fuel R = (R % n, R / n) := by
  induction fuel generalizing R with
  | zero =>
    have : R < n := by
      have := (Nat.div_eq_zero_iff.1 (Nat.le_zero.1 h)); omega
    simp [subtractWhile, Nat.mod_eq_of_lt this, Nat.div_eq_of_lt this]
  | succ fuel ih =>
    rw [subtractWhile]
    split
    · next hle =>
      have hd : R / n = (R - n) / n + 1 := by rw [Nat.div_eq_sub_div hn hle]
      rw [ih _ (by omega)]
      simp [hd, Nat.mod_eq_sub_mod hle]
    · next hlt =>
      have hlt : R < n := by omega
      simp [Nat.mod_eq_of_lt hlt, Nat.div_eq_of_lt hlt]

/-! ## Either multiplier -/

/-- A modular multiplier that is exact on register values. -/
abbrev Exact (p : Params) (n : Nat) (mm : Nat → Nat → Nat) : Prop :=
  ∀ a b, a < 2 ^ p.K → b < 2 ^ p.K → mm a b = a * b % n

theorem run_exact {p : Params} {n : Nat} (m : Multiplier) (hn0 : 1 ≤ n) (hn : n < 2 ^ p.K) :
    Exact p n (m.run p n) := by
  intro a b ha hb
  cases m
  · exact mulMod_eq ha hb
  · exact blakley_eq hn0 hn ha hb

/-! ## Binary exponentiation -/

theorem pow_div_bit (M n E i : Nat) :
    M ^ (E / 2 ^ i) % n = (M ^ (E / 2 ^ (i + 1)) * M ^ (E / 2 ^ (i + 1)) % n * M ^ bit E i) % n := by
  rw [div_pow_bit E i, Nat.pow_add, two_mul, Nat.pow_add, Nat.mod_mul_mod]

/-- After at least one step the loop holds `M^E mod n` (45_exp_binary.md R188). -/
theorem expBinLoop_eq {p : Params} {n M E : Nat} {mm : Nat → Nat → Nat} (hmm : Exact p n mm) (hn0 : 1 ≤ n)
    (hn : n < 2 ^ p.K) (hM : M < 2 ^ p.K) (i C : Nat) (hC : C < 2 ^ p.K) (h : C % n = M ^ (E / 2 ^ i) % n) :
    expBinLoop mm M E i C = if i = 0 then C else M ^ E % n := by
  induction i generalizing C with
  | zero => rfl
  | succ i ih =>
    have hlt (v : Nat) : v % n < 2 ^ p.K := lt_trans (Nat.mod_lt _ hn0) hn
    have hsq : squareAt mm C = M ^ (E / 2 ^ (i + 1)) * M ^ (E / 2 ^ (i + 1)) % n := by
      rw [squareAt, hmm C C hC hC, Nat.mul_mod, h, ← Nat.mul_mod]
    have hmu : multiplyAt mm M E i (squareAt mm C) = M ^ (E / 2 ^ i) % n := by
      rw [pow_div_bit, multiplyAt, hsq]
      split
      · next hb => rw [hb, Nat.pow_one, hmm _ _ (hlt _) hM]
      · next hb =>
        have := bit_le_one E i
        rw [show bit E i = 0 by omega, Nat.pow_zero, Nat.mul_one, Nat.mod_mod]
    rw [expBinLoop, hmu, ih _ (hlt _) (Nat.mod_mod _ _), if_neg (Nat.succ_ne_zero i)]
    split
    · next hi => subst hi; simp
    · rfl

theorem nbits_pos {E : Nat} (h : E ≠ 0) : nbits E = Nat.log2 E + 1 := by rw [nbits, if_neg h]

theorem nbits_one : nbits 1 = 1 := by decide

theorem lt_two_pow_nbits (E : Nat) : E < 2 ^ nbits E := by
  by_cases h : E = 0
  · simp [h, nbits]
  · rw [nbits_pos h]; exact Nat.lt_log2_self

theorem two_pow_le_of_nbits {E : Nat} (h : E ≠ 0) : 2 ^ (nbits E - 1) ≤ E := by
  rw [nbits_pos h, Nat.add_sub_cancel]; exact Nat.log2_self_le h

theorem nbits_le {E N : Nat} (h : E < 2 ^ N) : nbits E ≤ N := by
  by_cases h0 : E = 0
  · simp [h0, nbits]
  · have := two_pow_le_of_nbits h0
    have := (Nat.pow_lt_pow_iff_right (by norm_num : 1 < 2)).1 (lt_of_le_of_lt this h)
    omega

theorem div_top_bit {E : Nat} (h : E ≠ 0) : E / 2 ^ (nbits E - 1) = 1 := by
  have h1 := two_pow_le_of_nbits h
  have h2 := lt_two_pow_nbits E
  have h3 : 2 ^ nbits E = 2 * 2 ^ (nbits E - 1) := by
    rw [nbits_pos h, Nat.add_sub_cancel, Nat.pow_succ]; ring
  have h4 : E / 2 ^ (nbits E - 1) < 2 := by rw [Nat.div_lt_iff_lt_mul (by positivity)]; omega
  have h5 : 1 ≤ E / 2 ^ (nbits E - 1) := by rw [Nat.le_div_iff_mul_le (by positivity)]; omega
  omega

/-- The value of the binary method, for either multiplier: the table of 45_exp_binary.md R188. -/
theorem expBin_eq {p : Params} {n M E : Nat} {mm : Nat → Nat → Nat} (hmm : Exact p n mm) (hn0 : 1 ≤ n)
    (hn : n < 2 ^ p.K) (hM : M < 2 ^ p.K) : expBin mm M E = expTable M E n := by
  rw [expBin, expTable]
  split
  · rfl
  · next h0 =>
    rw [expBinLoop_eq hmm hn0 hn hM _ _ hM (by rw [div_top_bit h0, Nat.pow_one])]
    have h2 := lt_two_pow_nbits E
    by_cases h1 : E = 1
    · subst h1; rw [nbits_one]; simp
    · have : nbits E - 1 ≠ 0 := by
        intro hz
        have : 2 ^ nbits E ≤ 2 ^ 1 := Nat.pow_le_pow_right (by norm_num) (by omega)
        omega
      rw [if_neg this, if_neg h1]

/-! ## The decomposer and the windowed method -/

theorem length_digits (p : Params) (E : Nat) : (digits p E).length = p.dmax := by simp [digits]

theorem wordAt_digits {p : Params} {E i : Nat} (h : i < p.dmax) : wordAt (digits p E) i = digit p E i := by
  have h' : i < (digits p E).length := by rwa [length_digits]
  rw [wordAt, List.getD_eq_getElem _ _ h']
  simp [digits]

theorem digit_lt (p : Params) (E i : Nat) : digit p E i < 2 ^ p.r := Nat.mod_lt _ (by positivity)

theorem div_digit (p : Params) (E i : Nat) :
    E / 2 ^ (i * p.r) = 2 ^ p.r * (E / 2 ^ ((i + 1) * p.r)) + digit p E i := by
  rw [Nat.add_mul, Nat.one_mul, Nat.pow_add, ← Nat.div_div_eq_div_mul, digit, trunc, Nat.div_add_mod]

theorem ceil_spec (k r : Nat) (hr : 1 ≤ r) : k ≤ (k + r - 1) / r * r ∧ ((k + r - 1) / r - 1) * r ≤ k - 1 := by
  have h1 := Nat.div_add_mod (k + r - 1) r
  have h2 := Nat.mod_lt (k + r - 1) hr
  rw [Nat.mul_comm] at h1
  rw [Nat.sub_mul]
  constructor <;> omega

theorem digitCount_pos {p : Params} {E : Nat} (hr : 1 ≤ p.r) (h : E ≠ 0) : 1 ≤ digitCount p E := by
  rw [digitCount, Nat.le_div_iff_mul_le hr, nbits_pos h]; omega

theorem digitCount_le {p : Params} {E : Nat} (hE : E < 2 ^ p.K) : digitCount p E ≤ p.dmax := by
  have := nbits_le hE
  exact Nat.div_le_div_right (by omega)

theorem lt_two_pow_digits {p : Params} {E : Nat} (hr : 1 ≤ p.r) : E < 2 ^ (digitCount p E * p.r) :=
  lt_of_lt_of_le (lt_two_pow_nbits E) (Nat.pow_le_pow_right (by norm_num) (ceil_spec _ _ hr).1)

/-- The digits rebuild the exponent: `E = Σ d[i]·2^(r·i)` (46_exp_windowed.md R195). -/
theorem val_digits {p : Params} {E : Nat} (hr : 1 ≤ p.r) (hE : E < 2 ^ p.K) : val p.r (digits p E) = E := by
  have hd : digits p E = big p.r p.dmax E := by
    apply words_ext (by simp [length_digits])
    intro j hj
    rw [length_digits] at hj
    rw [wordAt_digits hj, wordAt_big _ _ _ _ hj, digit, trunc, Nat.mul_comm]
  have hK : p.K ≤ p.r * p.dmax := by rw [Nat.mul_comm]; exact (ceil_spec _ _ hr).1
  rw [hd, val_big, Nat.mod_eq_of_lt (lt_of_lt_of_le hE (Nat.pow_le_pow_right (by norm_num) hK))]

/-- For a non-zero exponent the top digit is what is left of it above the others, in `[1, 2^r)`
(46_exp_windowed.md R195). -/
theorem top_digit {p : Params} {E : Nat} (hr : 1 ≤ p.r) (h : E ≠ 0) :
    digit p E (digitCount p E - 1) = E / 2 ^ ((digitCount p E - 1) * p.r) ∧
    1 ≤ digit p E (digitCount p E - 1) := by
  have hs := digitCount_pos hr h
  have hlt : E / 2 ^ ((digitCount p E - 1) * p.r) < 2 ^ p.r := by
    rw [Nat.div_lt_iff_lt_mul (by positivity), ← Nat.pow_add]
    have := lt_two_pow_digits (p := p) (E := E) hr
    have e : p.r + (digitCount p E - 1) * p.r = digitCount p E * p.r := by
      obtain ⟨q, hq⟩ : ∃ q, digitCount p E = q + 1 := ⟨_, (Nat.sub_add_cancel hs).symm⟩
      rw [hq, Nat.add_sub_cancel]; ring
    rwa [e]
  have e : digit p E (digitCount p E - 1) = E / 2 ^ ((digitCount p E - 1) * p.r) := by
    rw [digit, trunc, Nat.mod_eq_of_lt hlt]
  refine ⟨e, ?_⟩
  rw [e, Nat.le_div_iff_mul_le (by positivity), Nat.one_mul]
  exact le_trans (Nat.pow_le_pow_right (by norm_num) (ceil_spec _ _ hr).2) (two_pow_le_of_nbits h)

theorem length_powers (mm : Nat → Nat → Nat) (M c t : Nat) : (powers mm M c t).length = c := by
  induction c generalizing t with
  | zero => rfl
  | succ c ih => simp [powers, ih]

theorem wordAt_powers {p : Params} {n M : Nat} {mm : Nat → Nat → Nat} (hmm : Exact p n mm) (hn0 : 1 ≤ n)
    (hn : n < 2 ^ p.K) (hM : M < 2 ^ p.K) (c t j : Nat) (ht : t < 2 ^ p.K) (hj : j < c) :
    wordAt (powers mm M c t) j = if j = 0 then t else t * M ^ j % n := by
  induction c generalizing t j with
  | zero => omega
  | succ c ih =>
    cases j with
    | zero => rfl
    | succ j =>
      have e : wordAt (powers mm M (c + 1) t) (j + 1) = wordAt (powers mm M c (mm t M)) j := rfl
      have hlt : t * M % n < 2 ^ p.K := lt_trans (Nat.mod_lt _ hn0) hn
      rw [e, hmm t M ht hM, ih _ _ hlt (by omega), if_neg (Nat.succ_ne_zero j)]
      split
      · next h => subst h; simp
      · rw [Nat.mod_mul_mod, Nat.mul_assoc, ← Nat.pow_succ']

theorem two_le_mAry {p : Params} (hr : 1 ≤ p.r) : 2 ≤ p.mAry := by
  rw [Params.mAry]
  calc 2 = 2 ^ 1 := rfl
    _ ≤ 2 ^ p.r := Nat.pow_le_pow_right (by norm_num) hr

theorem length_powerTable {p : Params} {mm : Nat → Nat → Nat} {M : Nat} (hr : 1 ≤ p.r) :
    (powerTable p mm M).length = p.mAry := by
  have := two_le_mAry hr
  simp [powerTable, length_powers]; omega

/-- The power table: 1, the base as it is, then `M^i mod n` (46_exp_windowed.md R198, R201). -/
theorem wordAt_powerTable {p : Params} {n M : Nat} {mm : Nat → Nat → Nat} (hmm : Exact p n mm) (hn0 : 1 ≤ n)
    (hn : n < 2 ^ p.K) (hM : M < 2 ^ p.K) {i : Nat} (hi : i < p.mAry) :
    wordAt (powerTable p mm M) i = expTable M i n := by
  cases i with
  | zero => rfl
  | succ i =>
    have e : wordAt (powerTable p mm M) (i + 1) = wordAt (powers mm M (p.mAry - 1) M) i := rfl
    rw [e, wordAt_powers hmm hn0 hn hM _ _ _ hM (by omega), expTable, if_neg (Nat.succ_ne_zero i)]
    by_cases h : i = 0
    · simp [h]
    · rw [if_neg h, if_neg (by omega), ← Nat.pow_succ']

theorem expTable_mod (M E n : Nat) : expTable M E n % n = M ^ E % n := by
  rw [expTable]
  split
  · next h => simp [h]
  · split
    · next h => simp [h]
    · exact Nat.mod_mod _ _

theorem expTable_lt {p : Params} {M E n : Nat} (hn0 : 1 ≤ n) (hn : n < 2 ^ p.K) (hM : M < 2 ^ p.K) :
    expTable M E n < 2 ^ p.K := by
  rw [expTable]
  split
  · omega
  · split
    · exact hM
    · exact lt_trans (Nat.mod_lt _ hn0) hn

/-- `count ≥ 1` squarings raise to the `2^count`-th power modulo `n`. -/
theorem squareTimes_eq {p : Params} {n : Nat} {mm : Nat → Nat → Nat} (hmm : Exact p n mm) (hn0 : 1 ≤ n)
    (hn : n < 2 ^ p.K) (count C : Nat) (hC : C < 2 ^ p.K) :
    squareTimes mm count C = if count = 0 then C else C ^ 2 ^ count % n := by
  induction count generalizing C with
  | zero => rfl
  | succ c ih =>
    have hlt : C * C % n < 2 ^ p.K := lt_trans (Nat.mod_lt _ hn0) hn
    have e : C ^ 2 ^ (c + 1) = (C * C) ^ 2 ^ c := by rw [Nat.pow_succ', Nat.pow_mul, Nat.pow_two]
    rw [squareTimes, hmm C C hC hC, ih _ hlt, if_neg (Nat.succ_ne_zero c)]
    split
    · next h => subst h; simp [Nat.pow_two]
    · rw [e, ← Nat.pow_mod]

theorem expWinLoop_eq {p : Params} {n M E : Nat} {mm : Nat → Nat → Nat} (hmm : Exact p n mm) (hr : 1 ≤ p.r)
    (hn0 : 1 ≤ n) (hn : n < 2 ^ p.K) (hM : M < 2 ^ p.K) (i C : Nat) (hi : i ≤ p.dmax) (hC : C < 2 ^ p.K)
    (h : C % n = M ^ (E / 2 ^ (i * p.r)) % n) :
    expWinLoop p mm (powerTable p mm M) (digits p E) i C = if i = 0 then C else M ^ E % n := by
  induction i generalizing C with
  | zero => rfl
  | succ i ih =>
    have hlt (v : Nat) : v % n < 2 ^ p.K := lt_trans (Nat.mod_lt _ hn0) hn
    have hsq : squareTimes mm p.r C = M ^ (2 ^ p.r * (E / 2 ^ ((i + 1) * p.r))) % n := by
      rw [squareTimes_eq hmm hn0 hn _ _ hC, if_neg (by omega), Nat.pow_mod, h, ← Nat.pow_mod, ← Nat.pow_mul,
        Nat.mul_comm]
    have hmu : multiplyDigit mm (powerTable p mm M) (wordAt (digits p E) i) (squareTimes mm p.r C)
        = M ^ (E / 2 ^ (i * p.r)) % n := by
      rw [div_digit, Nat.pow_add, multiplyDigit, hsq, wordAt_digits (by omega),
        wordAt_powerTable hmm hn0 hn hM (digit_lt p E i)]
      split
      · rw [hmm _ _ (hlt _) (expTable_lt hn0 hn hM), Nat.mod_mul_mod, ← Nat.mul_mod_mod, expTable_mod,
          Nat.mul_mod_mod]
      · next hd => rw [show digit p E i = 0 by omega, Nat.pow_zero, Nat.mul_one]
    rw [expWinLoop, hmu, ih _ (by omega) (hlt _) (Nat.mod_mod _ _), if_neg (Nat.succ_ne_zero i)]
    split
    · next h0 => subst h0; simp
    · rfl

/-- The value of the windowed method, for either multiplier and every `r`: the same table (46_exp_windowed.md R201). -/
theorem expWin_eq {p : Params} {n M E : Nat} {mm : Nat → Nat → Nat} (hmm : Exact p n mm) (hr : 1 ≤ p.r)
    (hn0 : 1 ≤ n) (hn : n < 2 ^ p.K) (hM : M < 2 ^ p.K) (hE : E < 2 ^ p.K) :
    expWin p mm M E = expTable M E n := by
  rw [expWin]
  split
  · next h => simp [expTable, h]
  · next h0 =>
    have hs := digitCount_pos hr h0
    have hsd := digitCount_le hE
    obtain ⟨ht, ht1⟩ := top_digit hr h0
    have hT : wordAt (powerTable p mm M) (wordAt (digits p E) (digitCount p E - 1))
        = expTable M (digit p E (digitCount p E - 1)) n := by
      rw [wordAt_digits (by omega), wordAt_powerTable hmm hn0 hn hM (digit_lt _ _ _)]
    simp only [hT]
    rw [expWinLoop_eq hmm hr hn0 hn hM _ _ (by omega) (expTable_lt hn0 hn hM) (by rw [expTable_mod, ht])]
    split
    · next hz => rw [ht, hz]; simp
    · next hz =>
      have hE1 : E ≠ 1 := by
        rintro rfl
        apply hz
        rw [digitCount, nbits_one, Nat.add_sub_cancel_left, Nat.div_self hr]
      rw [expTable, if_neg h0, if_neg hE1]

end Sys2Proof.Machine
end

