-- ==== Sys2Proof/Laws/State.lean ====
section
/-! SUPPORT. Laws/State.lean: one lemma per field per update of the state, and the register file's reads after writes,
so that no proof unfolds a record update. -/

namespace Sys2Proof.Machine

/-! ## The register file (10_state.md R21, R23) -/

@[simp] theorem get_set_same (x : Regs) (i : Reg) (ws : Words) : (x.set i ws).get i = ws := by cases i <;> rfl

theorem get_set_other (x : Regs) {i k : Reg} (ws : Words) (h : k ≠ i) : (x.set i ws).get k = x.get k := by
  cases i <;> cases k <;> first | rfl | exact absurd rfl h

theorem get_mem (x : Regs) (i : Reg) : x.get i ∈ x.toList := by cases i <;> simp [Regs.get, Regs.toList]

theorem mem_set {x : Regs} {i : Reg} {ws v : Words} (h : v ∈ (x.set i ws).toList) : v = ws ∨ v ∈ x.toList := by
  cases i <;> simp only [Regs.set, Regs.toList, List.mem_cons, List.not_mem_nil, or_false] at h ⊢ <;> tauto

@[simp] theorem words_setWords_same (s : State) (i : Reg) (ws : Words) : (s.setWords i ws).words i = ws :=
  get_set_same _ _ _

theorem words_setWords_other (s : State) {i k : Reg} (ws : Words) (h : k ≠ i) :
    (s.setWords i ws).words k = s.words k := get_set_other _ _ h

/-! ## Updates, field by field -/

@[simp] theorem setWords_cfg (s : State) (i : Reg) (ws : Words) : (s.setWords i ws).cfg = s.cfg := rfl
@[simp] theorem setWords_x (s : State) (i : Reg) (ws : Words) : (s.setWords i ws).x = s.x.set i ws := rfl
@[simp] theorem setWords_cmd (s : State) (i : Reg) (ws : Words) : (s.setWords i ws).cmd = s.cmd := rfl
@[simp] theorem setWords_status (s : State) (i : Reg) (ws : Words) : (s.setWords i ws).status = s.status := rfl
@[simp] theorem setWords_sres (s : State) (i : Reg) (ws : Words) : (s.setWords i ws).sres = s.sres := rfl
@[simp] theorem setWords_dig (s : State) (i : Reg) (ws : Words) : (s.setWords i ws).dig = s.dig := rfl
@[simp] theorem setWords_hid (s : State) (i : Reg) (ws : Words) : (s.setWords i ws).hid = s.hid := rfl
@[simp] theorem setWords_script (s : State) (i : Reg) (ws : Words) : (s.setWords i ws).script = s.script := rfl
@[simp] theorem setWords_sched (s : State) (i : Reg) (ws : Words) : (s.setWords i ws).sched = s.sched := rfl
@[simp] theorem setWords_replies (s : State) (i : Reg) (ws : Words) : (s.setWords i ws).replies = s.replies := rfl
@[simp] theorem setWords_freeIx (s : State) (i : Reg) (ws : Words) : (s.setWords i ws).freeIx = s.freeIx := rfl

@[simp] theorem setValue_cfg (s : State) (i : Reg) (v : Nat) : (s.setValue i v).cfg = s.cfg := rfl
@[simp] theorem setValue_x (s : State) (i : Reg) (v : Nat) : (s.setValue i v).x = s.x.set i (big s.cfg.B s.cfg.W v) := rfl
@[simp] theorem setValue_cmd (s : State) (i : Reg) (v : Nat) : (s.setValue i v).cmd = s.cmd := rfl
@[simp] theorem setValue_status (s : State) (i : Reg) (v : Nat) : (s.setValue i v).status = s.status := rfl
@[simp] theorem setValue_sres (s : State) (i : Reg) (v : Nat) : (s.setValue i v).sres = s.sres := rfl
@[simp] theorem setValue_dig (s : State) (i : Reg) (v : Nat) : (s.setValue i v).dig = s.dig := rfl
@[simp] theorem setValue_hid (s : State) (i : Reg) (v : Nat) : (s.setValue i v).hid = s.hid := rfl
@[simp] theorem setValue_script (s : State) (i : Reg) (v : Nat) : (s.setValue i v).script = s.script := rfl
@[simp] theorem setValue_sched (s : State) (i : Reg) (v : Nat) : (s.setValue i v).sched = s.sched := rfl
@[simp] theorem setValue_replies (s : State) (i : Reg) (v : Nat) : (s.setValue i v).replies = s.replies := rfl
@[simp] theorem setValue_freeIx (s : State) (i : Reg) (v : Nat) : (s.setValue i v).freeIx = s.freeIx := rfl

@[simp] theorem setSres_cfg (s : State) (v : BusWord) : (s.setSres v).cfg = s.cfg := rfl
@[simp] theorem setSres_x (s : State) (v : BusWord) : (s.setSres v).x = s.x := rfl
@[simp] theorem setSres_cmd (s : State) (v : BusWord) : (s.setSres v).cmd = s.cmd := rfl
@[simp] theorem setSres_status (s : State) (v : BusWord) : (s.setSres v).status = s.status := rfl
@[simp] theorem setSres_sres (s : State) (v : BusWord) : (s.setSres v).sres = v := rfl
@[simp] theorem setSres_dig (s : State) (v : BusWord) : (s.setSres v).dig = s.dig := rfl
@[simp] theorem setSres_hid (s : State) (v : BusWord) : (s.setSres v).hid = s.hid := rfl
@[simp] theorem setSres_script (s : State) (v : BusWord) : (s.setSres v).script = s.script := rfl
@[simp] theorem setSres_sched (s : State) (v : BusWord) : (s.setSres v).sched = s.sched := rfl
@[simp] theorem setSres_replies (s : State) (v : BusWord) : (s.setSres v).replies = s.replies := rfl
@[simp] theorem setSres_freeIx (s : State) (v : BusWord) : (s.setSres v).freeIx = s.freeIx := rfl

@[simp] theorem setOvf_cfg (s : State) (v : Bool) : (s.setOvf v).cfg = s.cfg := rfl
@[simp] theorem setOvf_x (s : State) (v : Bool) : (s.setOvf v).x = s.x := rfl
@[simp] theorem setOvf_cmd (s : State) (v : Bool) : (s.setOvf v).cmd = s.cmd := rfl
@[simp] theorem setOvf_status (s : State) (v : Bool) : (s.setOvf v).status = { s.status with ovf := v } := rfl
@[simp] theorem setOvf_sres (s : State) (v : Bool) : (s.setOvf v).sres = s.sres := rfl
@[simp] theorem setOvf_dig (s : State) (v : Bool) : (s.setOvf v).dig = s.dig := rfl
@[simp] theorem setOvf_hid (s : State) (v : Bool) : (s.setOvf v).hid = s.hid := rfl
@[simp] theorem setOvf_script (s : State) (v : Bool) : (s.setOvf v).script = s.script := rfl
@[simp] theorem setOvf_sched (s : State) (v : Bool) : (s.setOvf v).sched = s.sched := rfl
@[simp] theorem setOvf_replies (s : State) (v : Bool) : (s.setOvf v).replies = s.replies := rfl
@[simp] theorem setOvf_freeIx (s : State) (v : Bool) : (s.setOvf v).freeIx = s.freeIx := rfl

@[simp] theorem setDig_cfg (s : State) (d : List Nat) : (s.setDig d).cfg = s.cfg := rfl
@[simp] theorem setDig_x (s : State) (d : List Nat) : (s.setDig d).x = s.x := rfl
@[simp] theorem setDig_cmd (s : State) (d : List Nat) : (s.setDig d).cmd = s.cmd := rfl
@[simp] theorem setDig_status (s : State) (d : List Nat) : (s.setDig d).status = s.status := rfl
@[simp] theorem setDig_sres (s : State) (d : List Nat) : (s.setDig d).sres = s.sres := rfl
@[simp] theorem setDig_dig (s : State) (d : List Nat) : (s.setDig d).dig = d := rfl
@[simp] theorem setDig_hid (s : State) (d : List Nat) : (s.setDig d).hid = s.hid := rfl
@[simp] theorem setDig_script (s : State) (d : List Nat) : (s.setDig d).script = s.script := rfl
@[simp] theorem setDig_sched (s : State) (d : List Nat) : (s.setDig d).sched = s.sched := rfl
@[simp] theorem setDig_replies (s : State) (d : List Nat) : (s.setDig d).replies = s.replies := rfl
@[simp] theorem setDig_freeIx (s : State) (d : List Nat) : (s.setDig d).freeIx = s.freeIx := rfl

@[simp] theorem setHidden_cfg (s : State) (h : Hidden) : (s.setHidden h).cfg = s.cfg := rfl
@[simp] theorem setHidden_x (s : State) (h : Hidden) : (s.setHidden h).x = s.x := rfl
@[simp] theorem setHidden_cmd (s : State) (h : Hidden) : (s.setHidden h).cmd = s.cmd := rfl
@[simp] theorem setHidden_status (s : State) (h : Hidden) : (s.setHidden h).status = s.status := rfl
@[simp] theorem setHidden_sres (s : State) (h : Hidden) : (s.setHidden h).sres = s.sres := rfl
@[simp] theorem setHidden_dig (s : State) (h : Hidden) : (s.setHidden h).dig = s.dig := rfl
@[simp] theorem setHidden_hid (s : State) (h : Hidden) : (s.setHidden h).hid = h := rfl
@[simp] theorem setHidden_script (s : State) (h : Hidden) : (s.setHidden h).script = s.script := rfl
@[simp] theorem setHidden_sched (s : State) (h : Hidden) : (s.setHidden h).sched = s.sched := rfl
@[simp] theorem setHidden_replies (s : State) (h : Hidden) : (s.setHidden h).replies = s.replies := rfl
@[simp] theorem setHidden_freeIx (s : State) (h : Hidden) : (s.setHidden h).freeIx = s.freeIx := rfl

@[simp] theorem setHaz_cfg (s : State) (v : Bool) : (s.setHaz v).cfg = s.cfg := rfl
@[simp] theorem setHaz_x (s : State) (v : Bool) : (s.setHaz v).x = s.x := rfl
@[simp] theorem setHaz_cmd (s : State) (v : Bool) : (s.setHaz v).cmd = s.cmd := rfl
@[simp] theorem setHaz_status (s : State) (v : Bool) : (s.setHaz v).status = { s.status with haz := v } := rfl
@[simp] theorem setHaz_sres (s : State) (v : Bool) : (s.setHaz v).sres = s.sres := rfl
@[simp] theorem setHaz_dig (s : State) (v : Bool) : (s.setHaz v).dig = s.dig := rfl
@[simp] theorem setHaz_hid (s : State) (v : Bool) : (s.setHaz v).hid = s.hid := rfl
@[simp] theorem setHaz_script (s : State) (v : Bool) : (s.setHaz v).script = s.script := rfl
@[simp] theorem setHaz_sched (s : State) (v : Bool) : (s.setHaz v).sched = s.sched := rfl
@[simp] theorem setHaz_replies (s : State) (v : Bool) : (s.setHaz v).replies = s.replies := rfl
@[simp] theorem setHaz_freeIx (s : State) (v : Bool) : (s.setHaz v).freeIx = s.freeIx := rfl

@[simp] theorem issue_cfg (s : State) (c : BusWord) : (s.issue c).cfg = s.cfg := rfl
@[simp] theorem issue_x (s : State) (c : BusWord) : (s.issue c).x = s.x := rfl
@[simp] theorem issue_cmd (s : State) (c : BusWord) : (s.issue c).cmd = c := rfl
@[simp] theorem issue_status (s : State) (c : BusWord) : (s.issue c).status = s.status.issued := rfl
@[simp] theorem issue_sres (s : State) (c : BusWord) : (s.issue c).sres = s.sres := rfl
@[simp] theorem issue_dig (s : State) (c : BusWord) : (s.issue c).dig = s.dig := rfl
@[simp] theorem issue_hid (s : State) (c : BusWord) : (s.issue c).hid = s.latch c := rfl
@[simp] theorem issue_script (s : State) (c : BusWord) : (s.issue c).script = s.script := rfl
@[simp] theorem issue_sched (s : State) (c : BusWord) : (s.issue c).sched = s.sched := rfl
@[simp] theorem issue_replies (s : State) (c : BusWord) : (s.issue c).replies = s.replies := rfl
@[simp] theorem issue_freeIx (s : State) (c : BusWord) : (s.issue c).freeIx = s.freeIx := rfl

@[simp] theorem reply_cfg (s : State) (v : BusWord) : (s.reply v).cfg = s.cfg := rfl
@[simp] theorem reply_x (s : State) (v : BusWord) : (s.reply v).x = s.x := rfl
@[simp] theorem reply_cmd (s : State) (v : BusWord) : (s.reply v).cmd = s.cmd := rfl
@[simp] theorem reply_status (s : State) (v : BusWord) : (s.reply v).status = s.status := rfl
@[simp] theorem reply_sres (s : State) (v : BusWord) : (s.reply v).sres = s.sres := rfl
@[simp] theorem reply_dig (s : State) (v : BusWord) : (s.reply v).dig = s.dig := rfl
@[simp] theorem reply_hid (s : State) (v : BusWord) : (s.reply v).hid = s.hid := rfl
@[simp] theorem reply_script (s : State) (v : BusWord) : (s.reply v).script = s.script := rfl
@[simp] theorem reply_sched (s : State) (v : BusWord) : (s.reply v).sched = s.sched := rfl
@[simp] theorem reply_replies (s : State) (v : BusWord) : (s.reply v).replies = s.replies ++ [v] := rfl
@[simp] theorem reply_freeIx (s : State) (v : BusWord) : (s.reply v).freeIx = s.freeIx := rfl

@[simp] theorem takeTurn_cfg (s : State) : s.takeTurn.cfg = s.cfg := rfl
@[simp] theorem takeTurn_x (s : State) : s.takeTurn.x = s.x := rfl
@[simp] theorem takeTurn_cmd (s : State) : s.takeTurn.cmd = s.cmd := rfl
@[simp] theorem takeTurn_status (s : State) : s.takeTurn.status = s.status := rfl
@[simp] theorem takeTurn_sres (s : State) : s.takeTurn.sres = s.sres := rfl
@[simp] theorem takeTurn_dig (s : State) : s.takeTurn.dig = s.dig := rfl
@[simp] theorem takeTurn_hid (s : State) : s.takeTurn.hid = s.hid := rfl
@[simp] theorem takeTurn_script (s : State) : s.takeTurn.script = s.script := rfl
@[simp] theorem takeTurn_sched (s : State) : s.takeTurn.sched = s.sched.tail := rfl
@[simp] theorem takeTurn_replies (s : State) : s.takeTurn.replies = s.replies := rfl
@[simp] theorem takeTurn_freeIx (s : State) : s.takeTurn.freeIx = s.freeIx := rfl

@[simp] theorem setWord_cfg (s : State) (i : Reg) (j : Nat) (v : BusWord) : (s.setWord i j v).cfg = s.cfg := rfl
@[simp] theorem setWord_x (s : State) (i : Reg) (j : Nat) (v : BusWord) : (s.setWord i j v).x = s.x.set i ((s.words i).set j (trunc s.cfg.B v.toNat)) := rfl
@[simp] theorem setWord_cmd (s : State) (i : Reg) (j : Nat) (v : BusWord) : (s.setWord i j v).cmd = s.cmd := rfl
@[simp] theorem setWord_status (s : State) (i : Reg) (j : Nat) (v : BusWord) : (s.setWord i j v).status = s.status := rfl
@[simp] theorem setWord_sres (s : State) (i : Reg) (j : Nat) (v : BusWord) : (s.setWord i j v).sres = s.sres := rfl
@[simp] theorem setWord_dig (s : State) (i : Reg) (j : Nat) (v : BusWord) : (s.setWord i j v).dig = s.dig := rfl
@[simp] theorem setWord_hid (s : State) (i : Reg) (j : Nat) (v : BusWord) : (s.setWord i j v).hid = s.hid := rfl
@[simp] theorem setWord_script (s : State) (i : Reg) (j : Nat) (v : BusWord) : (s.setWord i j v).script = s.script := rfl
@[simp] theorem setWord_sched (s : State) (i : Reg) (j : Nat) (v : BusWord) : (s.setWord i j v).sched = s.sched := rfl
@[simp] theorem setWord_replies (s : State) (i : Reg) (j : Nat) (v : BusWord) : (s.setWord i j v).replies = s.replies := rfl
@[simp] theorem setWord_freeIx (s : State) (i : Reg) (j : Nat) (v : BusWord) : (s.setWord i j v).freeIx = s.freeIx := rfl

@[simp] theorem hostReset_cfg (s : State) : s.hostReset.cfg = s.cfg := rfl
@[simp] theorem hostReset_x (s : State) : s.hostReset.x = freeRegs s.cfg s.freeIx := rfl
@[simp] theorem hostReset_cmd (s : State) : s.hostReset.cmd = 0 := rfl
@[simp] theorem hostReset_status (s : State) : s.hostReset.status = Status.reset := rfl
@[simp] theorem hostReset_sres (s : State) : s.hostReset.sres = 0 := rfl
@[simp] theorem hostReset_dig (s : State) : s.hostReset.dig = freeDig s.cfg s.freeIx := rfl
@[simp] theorem hostReset_hid (s : State) : s.hostReset.hid = freeHidden s.cfg s.freeIx := rfl
@[simp] theorem hostReset_script (s : State) : s.hostReset.script = s.script := rfl
@[simp] theorem hostReset_sched (s : State) : s.hostReset.sched = s.sched := rfl
@[simp] theorem hostReset_replies (s : State) : s.hostReset.replies = s.replies := rfl
@[simp] theorem hostReset_freeIx (s : State) : s.hostReset.freeIx = s.freeIx + 1 := rfl

/-! ## Completion (10_state.md R43) -/

@[simp] theorem succeed_next (s : State) : succeed s = .next { s with status := s.status.completed } := rfl

@[simp] theorem raiseError_next (e : CmdError) (s : State) :
    raiseError e s = .next { s with status := s.status.failed e } := rfl

/-- The entry check of the modular commands (60_exceptions.md R224): the error, or the command's own effect. -/
theorem withModulus_zero {n : Nat} (s : State) (go : Result) (h : n = 0) :
    withModulus n s go = raiseError .degenerateModulus s := if_pos h

theorem withModulus_pos {n : Nat} (s : State) (go : Result) (h : n ≠ 0) : withModulus n s go = go := if_neg h

end Sys2Proof.Machine
end

