-- ==== Sys2Proof/Laws/Exec.lean ====
section
/-! SUPPORT. Laws/Exec.lean: what a well-formed state says of its registers, and what every command can do at all: it
completes, in success or with an error, and touches nothing of the host's. -/

namespace Sys2Proof.Machine

/-! ## Registers of a well-formed state -/

theorem words_ok {s : State} (h : s.Wf) (i : Reg) : WordsOk s.cfg s.cfg.W (s.words i) := h.2.1 _ (get_mem s.x i)

theorem value_lt {s : State} (h : s.Wf) (i : Reg) : s.value i < 2 ^ s.cfg.K := by
  have h' := words_ok h i
  have := val_lt h'.2
  rwa [h'.1] at this

/-- A register's words are those of its value (00_scope.md R11). -/
theorem big_value {s : State} (h : s.Wf) (i : Reg) : big s.cfg.B s.cfg.W (s.value i) = s.words i := by
  have h' := words_ok h i
  have := big_val h'.2
  rwa [h'.1] at this

theorem big_ok (p : Config.Params) (N v : Nat) : WordsOk p N (big p.B N v) := ⟨length_big _ _ _, bounded_big _ _ _⟩

/-! ## Every command -/

/-- What a completion leaves alone, and how it ends (10_state.md R25, R31, R33, R43). -/
structure Completes (s t : State) : Prop where
  cmd : t.cmd = s.cmd
  cfg : t.cfg = s.cfg
  script : t.script = s.script
  sched : t.sched = s.sched
  replies : t.replies = s.replies
  freeIx : t.freeIx = s.freeIx
  haz : t.status.haz = s.status.haz
  busy : t.status.busy = false
  done : t.status.done = true

theorem completes_failed (s : State) (e : CmdError) : Completes s { s with status := s.status.failed e } :=
  ⟨rfl, rfl, rfl, rfl, rfl, rfl, rfl, rfl, rfl⟩

/-- A modular command's next state: the error, or its own effect. -/
theorem withModulus_next {n : Nat} {s t : State} {go : Result} (h : withModulus n s go = .next t) :
    (n = 0 ∧ t = { s with status := s.status.failed .degenerateModulus }) ∨ (n ≠ 0 ∧ go = .next t) := by
  unfold withModulus at h
  split at h
  · next hn => exact .inl ⟨hn, by simpa using h.symm⟩
  · next hn => exact .inr ⟨hn, h⟩

/-- The state a command leaves before its completion, when it does not end in an error. -/
def effect (i : Instr) (s : State) : State :=
  match i with
  | .clr d => s.setValue d 0
  | .ldi d imm => s.setValue d (immValue s.cfg imm)
  | .mov d a => s.setWords d (s.words a)
  | .cmp a b => s.setSres (signWord (cmpWords (s.words a) (s.words b)))
  | .getbit a imm => s.setSres (countWord (bitOfWords s.cfg (s.words a) imm))
  | .nbits a => s.setSres (countWord (nbits (s.value a)))
  | .shl1 d a => s.setWords d (shl1Words s.cfg.B (s.words a) 0)
  | .shr1 d a => s.setWords d (shr1Words s.cfg.B (s.words a))
  | .bshl d a imm => s.setWords d (bshlWords s.cfg.W (s.words a) imm)
  | .add d a b =>
    (s.setWords d (addWords s.cfg.B (s.words a) (s.words b) 0).1).setOvf
      (carryFlag (addWords s.cfg.B (s.words a) (s.words b) 0).2)
  | .sub d a b => s.setWords d (subWords s.cfg.B (s.words a) (s.words b) 0).1
  | .mul d a b =>
    ((s.setWords d ((mulWords s.cfg.B s.cfg.W (s.words a) (s.words b)).take s.cfg.W)).setOvf
      (upperNotZero s.cfg.W (mulWords s.cfg.B s.cfg.W (s.words a) (s.words b)))).setHidden
        { s.hid with p := mulWords s.cfg.B s.cfg.W (s.words a) (s.words b) }
  | .mod d a n =>
    (s.setValue d (modValue (s.value a) (s.value n))).setHidden
      (s.hid.afterReduce (reduceLoop s.cfg (s.value a) (s.value n)))
  | .mulmod d a b n =>
    (s.setValue d (mulMod s.cfg (s.value n) (s.value a) (s.value b))).setHidden
      (s.hid.afterMulMod s.cfg (s.value n) (s.value a) (s.value b))
  | .expb d m e n =>
    (s.setValue d (expBin (Multiplier.mulReduce.run s.cfg (s.value n)) (s.value m) (s.value e))).setHidden
      (s.hid.afterExpBin .mulReduce s.cfg (s.value n) (s.value m) (s.value e))
  | .expbk d m e n =>
    (s.setValue d (expBin (Multiplier.blakley.run s.cfg (s.value n)) (s.value m) (s.value e))).setHidden
      (s.hid.afterExpBin .blakley s.cfg (s.value n) (s.value m) (s.value e))
  | .expw d m e n =>
    ((s.setValue d (expWin s.cfg (Multiplier.mulReduce.run s.cfg (s.value n)) (s.value m) (s.value e))).setDig
      (digits s.cfg (s.value e))).setHidden (s.hid.afterExpWin .mulReduce s.cfg (s.value n) (s.value m) (s.value e))
  | .expwk d m e n =>
    ((s.setValue d (expWin s.cfg (Multiplier.blakley.run s.cfg (s.value n)) (s.value m) (s.value e))).setDig
      (digits s.cfg (s.value e))).setHidden (s.hid.afterExpWin .blakley s.cfg (s.value n) (s.value m) (s.value e))
  | .decomp e => (s.setDig (digits s.cfg (s.value e))).setSres (countWord (digitCount s.cfg (s.value e)))
  | .blak d a b n =>
    (s.setValue d (blakley s.cfg (s.value n) (s.value a) (s.value b))).setHidden
      (s.hid.afterBlakley s.cfg (s.value n) (s.value a) (s.value b))

/-- Whether a command ends in an error, by the check its meaning makes. -/
def checkFails (i : Instr) (s : State) : Option CmdError :=
  match i with
  | .sub _ a b => if cmpWords (s.words a) (s.words b) < 0 then some .underflow else none
  | i =>
    match modulus i with
    | some n => if s.value n = 0 then some .degenerateModulus else none
    | none => none

/-- Every command in one form: the error or the effect, then the completion. -/
theorem exec_eq (i : Instr) (s : State) :
    exec i s = match checkFails i s with | some e => raiseError e s | none => succeed (effect i s) := by
  cases i with
  | sub d a b =>
    simp only [exec, execSub, checkFails]
    split <;> rfl
  | mod d a n => simp only [exec, execMod, withModulus, checkFails, modulus]; split <;> rfl
  | mulmod d a b n => simp only [exec, execMulmod, withModulus, checkFails, modulus]; split <;> rfl
  | expb d a b n => simp only [exec, execExpb, execExpBinary, withModulus, checkFails, modulus]; split <;> rfl
  | expbk d a b n => simp only [exec, execExpbk, execExpBinary, withModulus, checkFails, modulus]; split <;> rfl
  | expw d a b n => simp only [exec, execExpw, execExpWindowed, withModulus, checkFails, modulus]; split <;> rfl
  | expwk d a b n => simp only [exec, execExpwk, execExpWindowed, withModulus, checkFails, modulus]; split <;> rfl
  | blak d a b n => simp only [exec, execBlak, withModulus, checkFails, modulus]; split <;> rfl
  | _ => rfl

/-- The two ways a command can end. -/
theorem exec_cases {i : Instr} {s t : State} (h : exec i s = .next t) :
    (∃ e, checkFails i s = some e ∧ t = { s with status := s.status.failed e }) ∨
    (checkFails i s = none ∧ t = { effect i s with status := (effect i s).status.completed }) := by
  rw [exec_eq] at h
  cases hf : checkFails i s with
  | some e => rw [hf] at h; exact .inl ⟨e, rfl, by simpa using h.symm⟩
  | none => rw [hf] at h; exact .inr ⟨rfl, by simpa using h.symm⟩

theorem exec_next (i : Instr) (s : State) : ∃ t, exec i s = .next t := by
  rw [exec_eq]
  cases checkFails i s with
  | some e => exact ⟨_, rfl⟩
  | none => exact ⟨_, rfl⟩

/-- Every command's completion leaves the host's side, CMD, HAZ and the parameters alone. -/
theorem exec_completes {i : Instr} {s t : State} (h : exec i s = .next t) : Completes s t := by
  obtain ⟨e, -, rfl⟩ | ⟨-, rfl⟩ := exec_cases h
  · exact completes_failed s e
  · cases i <;> exact ⟨rfl, rfl, rfl, rfl, rfl, rfl, rfl, rfl, rfl⟩

/-- In a well-formed state the comparison of SUB is the comparison of the values. -/
theorem cmpWords_value {s : State} (h : s.Wf) (a b : Reg) :
    cmpWords (s.words a) (s.words b) =
      if s.value a < s.value b then -1 else if s.value a = s.value b then 0 else 1 :=
  cmpWords_eq ((words_ok h a).1.trans (words_ok h b).1.symm) (words_ok h a).2 (words_ok h b).2

/-- The check a command makes is the error condition of 60_exceptions.md R221. -/
theorem checkFails_eq {s : State} (h : s.Wf) (i : Instr) : checkFails i s = errorOf i s := by
  cases i with
  | sub d a b =>
    simp only [checkFails, errorOf, cmpWords_value h]
    split <;> split <;> first | rfl | omega
  | _ => rfl

end Sys2Proof.Machine
end

