-- ==== Sys2Proof/Laws/HostPort.lean ====
section
/-! SUPPORT. Laws/HostPort.lean: what the host's transactions, a host action and a turn can do at all (20_memory.md R61 to
R66, 10_state.md R43, R45), said once. -/

namespace Sys2Proof.Machine

open Sys2Proof.Config (Params)

/-! ## STATUS -/

theorem status_word_toNat (t : Status) :
    t.word.toNat = t.busy.toNat + t.done.toNat * 2 + t.err.toNat * 4 + t.ovf.toNat * 8 + t.haz.toNat * 16
      + t.errcode.toNat * 256 := by
  have h1 := Bool.toNat_lt t.busy
  have h2 := Bool.toNat_lt t.done
  have h3 := Bool.toNat_lt t.err
  have h4 := Bool.toNat_lt t.ovf
  have h5 := Bool.toNat_lt t.haz
  have h6 := t.errcode.isLt
  rw [Status.word, BitVec.toNat_ofNat]
  omega

/-- Bit 0 of STATUS is BUSY (10_state.md R26). -/
theorem status_word_busy (t : Status) : t.word.getLsbD 0 = t.busy := by
  rw [BitVec.getLsbD, status_word_toNat]
  cases t.busy <;> simp [Nat.testBit_zero] <;> omega

/-! ## The register map -/

theorem locate_status (p : Params) : locate p statusAddr = .status := rfl

theorem locate_eq_status {p : Params} {a : HostAddr} : locate p a = .status ↔ a = statusAddr := by
  constructor
  · intro h
    simp only [locate] at h
    split at h
    · simp at h
    · split at h
      · next h1 => exact BitVec.eq_of_toNat_eq h1
      · split at h <;> try simp at h
        split at h <;> try simp at h
        split at h <;> try simp at h
        split at h
        · split at h <;> simp at h
        · split at h <;> simp at h
  · rintro rfl; rfl

/-! ## Transactions -/

/-- A read: a violation returns 0 and sets HAZ, any other read returns the content and changes nothing (R61, R66). -/
theorem memRead_cases (s : State) (addr : HostAddr) :
    (violates s (.rd addr) = true ∧ memRead s addr = (0, s.setHaz true)) ∨
    (violates s (.rd addr) = false ∧ ∃ v, s.peek addr = some v ∧ memRead s addr = (v, s)) := by
  unfold memRead violates
  by_cases hb : s.status.busy = true
  · by_cases ha : addr = statusAddr
    · subst ha; right; simp [locate_status, State.peek, State.content]
    · left
      have : locate s.cfg addr ≠ .status := fun h => ha (locate_eq_status.1 h)
      simp [hb, ha, this]
  · by_cases hu : locate s.cfg addr = .unmapped
    · left; simp [hb, hu, State.peek, State.content]
    · right
      have : ∃ v, s.peek addr = some v := by
        unfold State.peek
        cases hl : locate s.cfg addr <;> simp_all [State.content]
      obtain ⟨v, hv⟩ := this
      simp [hb, hu, hv]

/-- A write: a violation is dropped and sets HAZ, any other write is an issue, the clearing of HAZ, one word of the operand
window, or ignored (R62, R66). -/
theorem memWrite_cases (s : State) (addr : HostAddr) (v : BusWord) :
    (violates s (.wr addr v) = true ∧ memWrite s addr v = s.setHaz true) ∨
    (violates s (.wr addr v) = false ∧ s.status.busy = false ∧
      (memWrite s addr v = s ∨ memWrite s addr v = s.issue v ∨
        (addr = statusAddr ∧ v.getLsbD 4 = true ∧ memWrite s addr v = s.setHaz false) ∨
        ∃ i j, locate s.cfg addr = .word i j ∧ memWrite s addr v = s.setWord i j v)) := by
  unfold memWrite violates
  by_cases hb : s.status.busy = true
  · left; simp [hb]
  · by_cases hu : locate s.cfg addr = .unmapped
    · left; simp [hb, hu]
    · right
      refine ⟨by simp [hb, hu], by simpa using hb, ?_⟩
      rw [if_neg hb]
      cases hl : locate s.cfg addr with
      | unmapped => exact absurd hl hu
      | cmd => exact .inr (.inl rfl)
      | status =>
        by_cases h4 : v.getLsbD 4 = true
        · exact .inr (.inr (.inl ⟨locate_eq_status.1 hl, h4, if_pos h4⟩))
        · exact .inl (if_neg h4)
      | sres => exact .inl rfl
      | cfg => exact .inl rfl
      | dig i => exact .inl rfl
      | word i j => exact .inr (.inr (.inr ⟨i, j, rfl, rfl⟩))

/-- `wait` reads STATUS and repeats while BUSY (30_encoding.md R101). -/
theorem hostAct_wait (s : State) :
    s.hostAct .wait =
      { s.reply s.status.word with script := if s.status.busy = true then .wait :: s.script else s.script } := by
  have h : memRead s statusAddr = (s.status.word, s) := by
    simp [memRead, locate_status, State.peek, State.content]
  simp only [State.hostAct, State.hostRead, h, status_word_busy]
  split <;> rfl

/-- What a host action can do: a read's reply, a violation's HAZ, or the effect of a write, a `wait`, a reset. -/
theorem hostAct_cases (s : State) (act : HostAction) :
    (∃ addr v, act = .rd addr ∧ violates s act = false ∧ s.peek addr = some v ∧ s.hostAct act = s.reply v) ∨
    (∃ addr, act = .rd addr ∧ violates s act = true ∧ s.hostAct act = (s.setHaz true).reply 0) ∨
    (∃ addr v, act = .wr addr v ∧ s.hostAct act = memWrite s addr v) ∨
    (act = .wait ∧ s.hostAct act =
      { s.reply s.status.word with script := if s.status.busy = true then .wait :: s.script else s.script }) ∨
    (act = .reset ∧ s.hostAct act = s.hostReset) := by
  cases act with
  | rd addr =>
    obtain ⟨hv, e⟩ | ⟨hv, v, hp, e⟩ := memRead_cases s addr
    · exact .inr (.inl ⟨addr, rfl, hv, by simp only [State.hostAct, State.hostRead, e]⟩)
    · exact .inl ⟨addr, v, rfl, hv, hp, by simp only [State.hostAct, State.hostRead, e]⟩
  | wr addr v => exact .inr (.inr (.inl ⟨addr, v, rfl, rfl⟩))
  | wait => exact .inr (.inr (.inr (.inl ⟨rfl, hostAct_wait s⟩)))
  | reset => exact .inr (.inr (.inr (.inr ⟨rfl, rfl⟩)))

/-! ## Steps -/

/-- What a step of a legal build is: the completion of the command in flight, a turn nobody uses, or a host action. -/
theorem step_cases {s : State} (hl : s.cfg.Legal) :
    (s.nextAgent = .core ∧ s.status.busy = true ∧ nextAction s = none ∧
      step s = match decode s.cmd with
        | .ok i => exec i s.takeTurn
        | .error _ => raiseError .illegalCommand s.takeTurn) ∨
    (nextAction s = none ∧ step s = .next s.takeTurn) ∨
    (∃ act rest, s.nextAgent = .host ∧ s.script = act :: rest ∧ nextAction s = some act ∧
      step s = .next ({ s.takeTurn with script := rest }.hostAct act)) := by
  unfold step
  rw [if_pos hl]
  cases ha : s.nextAgent with
  | core =>
    by_cases hb : s.status.busy = true
    · left
      refine ⟨rfl, hb, by rw [nextAction, ha], ?_⟩
      have ht : s.nextTurn = .completion s.takeTurn := by simp only [State.nextTurn, ha, if_pos hb]
      cases hd : decode s.cmd <;> simp only [ht, State.fetchCommand, takeTurn_cmd, hd]
    · right; left
      refine ⟨by rw [nextAction, ha], ?_⟩
      simp only [State.nextTurn, ha, if_neg hb]
  | host =>
    cases hs : s.script with
    | nil => right; left; exact ⟨by rw [nextAction, ha, hs]; rfl, by simp only [State.nextTurn, ha, hs]⟩
    | cons act rest =>
      right; right
      exact ⟨act, rest, rfl, rfl, by rw [nextAction, ha, hs]; rfl, by simp only [State.nextTurn, ha, hs]⟩

theorem step_illegal {s : State} (hl : ¬ s.cfg.Legal) : step s = .fault .illegalConfiguration := by
  unfold step; rw [if_neg hl]

theorem legal_of_step {s t : State} (h : step s = .next t) : s.cfg.Legal := by
  by_contra hl; rw [step_illegal hl] at h; cases h

/-- A run's first step, of any machine. -/
theorem run_succ (M : Host.Core) {s t : M.State} (k : Nat) (h : M.step s = .next t) : M.run (k + 1) s = M.run k t := by
  rw [Host.Core.run, h]

end Sys2Proof.Machine
end

