-- ==== Sys2Proof/Laws/Invariant.lean ====
section
/-! SUPPORT. Laws/Invariant.lean: the datapaths keep the registers at their widths (10_state.md R22, R34, R35), and what
each command leaves alone (R23, R30, R32, R34, R35). -/

namespace Sys2Proof.Machine

open Sys2Proof.Config (Params)

/-! ## The datapaths -/

theorem expTable_ok {p : Params} {M E n : Nat} (hn0 : n ≠ 0) (hn : n < 2 ^ p.K) (hM : M < 2 ^ p.K) :
    expTable M E n < 2 ^ p.K := expTable_lt (Nat.pos_of_ne_zero hn0) hn hM

theorem mod_lt_K {p : Params} {a n : Nat} (hn0 : n ≠ 0) (hn : n < 2 ^ p.K) : a % n < 2 ^ p.K :=
  lt_trans (Nat.mod_lt _ (Nat.pos_of_ne_zero hn0)) hn

theorem two_pow_K_le (p : Params) : 2 ^ p.K ≤ 2 ^ (2 * p.K) := Nat.pow_le_pow_right (by norm_num) (by omega)

theorem mul_lt_2K {p : Params} {a b : Nat} (ha : a < 2 ^ p.K) (hb : b < 2 ^ p.K) : a * b < 2 ^ (2 * p.K) := by
  rw [two_mul, Nat.pow_add]; exact Nat.mul_lt_mul'' ha hb

theorem afterReduce_ok {p : Params} {h : Hidden} {a n : Nat} (ha : a < 2 ^ (2 * p.K)) (hn0 : n ≠ 0)
    (hn : n < 2 ^ p.K) (hk : HiddenOk p h) : HiddenOk p (h.afterReduce (reduceLoop p a n)) := by
  obtain ⟨k, e, -, -, hkk⟩ := reduceLoop_spec (p := p) ha (Nat.pos_of_ne_zero hn0)
  obtain ⟨h1, -, -, -, h5⟩ := hk
  have hK := two_pow_K_le p
  have hr : a % n < 2 ^ (2 * p.K) := lt_of_lt_of_le (mod_lt_K hn0 hn) hK
  have hs : n < 2 ^ (2 * p.K + 1) := lt_of_lt_of_le hn (Nat.pow_le_pow_right (by norm_num) (by omega))
  rw [e]
  exact ⟨h1, hr, hs, hkk, h5⟩

theorem afterMulMod_ok {p : Params} {h : Hidden} {a b n : Nat} (ha : a < 2 ^ p.K) (hb : b < 2 ^ p.K) (hn0 : n ≠ 0)
    (hn : n < 2 ^ p.K) (hk : HiddenOk p h) : HiddenOk p (h.afterMulMod p n a b) := by
  have hm := mulWords_spec (B := p.B) (length_big p.B p.W a) (length_big p.B p.W b) (bounded_big _ _ _)
    (bounded_big _ _ _)
  unfold Hidden.afterMulMod
  apply afterReduce_ok _ hn0 hn
  · exact ⟨⟨hm.1, hm.2.1⟩, hk.2⟩
  · rw [productValue_eq ha hb]; exact mul_lt_2K ha hb

theorem afterBlakley_ok {p : Params} {h : Hidden} {a b n : Nat} (ha : a < 2 ^ p.K) (hb : b < 2 ^ p.K) (hn0 : n ≠ 0)
    (hn : n < 2 ^ p.K) (hk : HiddenOk p h) : HiddenOk p (h.afterBlakley p n a b) := by
  obtain ⟨h1, h2, h3, h4, h5, h6, -, -, h7⟩ := hk
  refine ⟨h1, h2, h3, h4, h5, h6, ?_, Nat.zero_le _, h7⟩
  change blakley p n a b < _
  rw [blakley_eq (Nat.pos_of_ne_zero hn0) hn ha hb]
  exact lt_trans (mod_lt_K hn0 hn) (Nat.pow_lt_pow_right (by norm_num) (by omega))

theorem scratch_ok {p : Params} {h : Hidden} {ab : Nat × Nat} {n : Nat} (m : Multiplier) (ha : ab.1 < 2 ^ p.K)
    (hb : ab.2 < 2 ^ p.K) (hn0 : n ≠ 0) (hn : n < 2 ^ p.K) (hk : HiddenOk p h) : HiddenOk p (m.scratch p n h ab) := by
  cases m
  · exact afterMulMod_ok ha hb hn0 hn hk
  · exact afterBlakley_ok ha hb hn0 hn hk

theorem foldl_scratch_ok {p : Params} {n : Nat} (m : Multiplier) (hn0 : n ≠ 0) (hn : n < 2 ^ p.K)
    (l : List (Nat × Nat)) (h : Hidden) (hl : ∀ ab ∈ l, ab.1 < 2 ^ p.K ∧ ab.2 < 2 ^ p.K) (hk : HiddenOk p h) :
    HiddenOk p (l.foldl (m.scratch p n) h) := by
  induction l generalizing h with
  | nil => exact hk
  | cons ab l ih =>
    rw [List.foldl_cons]
    have := hl ab List.mem_cons_self
    exact ih _ (fun x hx => hl x (List.mem_cons_of_mem _ hx)) (scratch_ok m this.1 this.2 hn0 hn hk)

/-! ## The operands of an exponentiation's multiplications are register values -/

/-- A multiplier that keeps register values. -/
def Bounding (p : Params) (mm : Nat → Nat → Nat) : Prop :=
  ∀ a b, a < 2 ^ p.K → b < 2 ^ p.K → mm a b < 2 ^ p.K

theorem run_bounding {p : Params} {n : Nat} (m : Multiplier) (hn0 : n ≠ 0) (hn : n < 2 ^ p.K) :
    Bounding p (m.run p n) := by
  intro a b ha hb
  rw [run_exact m (Nat.pos_of_ne_zero hn0) hn a b ha hb]
  exact mod_lt_K hn0 hn

theorem multiplyAt_lt {p : Params} {mm : Nat → Nat → Nat} {M E i C : Nat} (hmm : Bounding p mm) (hM : M < 2 ^ p.K)
    (hC : C < 2 ^ p.K) : multiplyAt mm M E i C < 2 ^ p.K := by
  unfold multiplyAt; split
  · exact hmm _ _ hC hM
  · exact hC

theorem expBinCalls_lt {p : Params} {mm : Nat → Nat → Nat} {M E : Nat} (hmm : Bounding p mm) (hM : M < 2 ^ p.K)
    (i C : Nat) (hC : C < 2 ^ p.K) : ∀ ab ∈ expBinCalls mm M E i C, ab.1 < 2 ^ p.K ∧ ab.2 < 2 ^ p.K := by
  induction i generalizing C with
  | zero => simp [expBinCalls]
  | succ i ih =>
    have hsq : squareAt mm C < 2 ^ p.K := hmm _ _ hC hC
    intro ab hab
    simp only [expBinCalls, List.mem_cons, List.mem_append] at hab
    rcases hab with rfl | hab | hab
    · exact ⟨hC, hC⟩
    · split at hab
      · simp only [List.mem_singleton] at hab; subst hab; exact ⟨hsq, hM⟩
      · simp at hab
    · exact ih _ (multiplyAt_lt hmm hM hsq) ab hab

theorem expBinAllCalls_lt {p : Params} {mm : Nat → Nat → Nat} {M E : Nat} (hmm : Bounding p mm) (hM : M < 2 ^ p.K) :
    ∀ ab ∈ expBinAllCalls mm M E, ab.1 < 2 ^ p.K ∧ ab.2 < 2 ^ p.K := by
  unfold expBinAllCalls
  split
  · simp
  · exact expBinCalls_lt hmm hM _ _ hM

theorem powers_lt {p : Params} {mm : Nat → Nat → Nat} {M : Nat} (hmm : Bounding p mm) (hM : M < 2 ^ p.K) (c t : Nat)
    (ht : t < 2 ^ p.K) : ∀ x ∈ powers mm M c t, x < 2 ^ p.K := by
  induction c generalizing t with
  | zero => simp [powers]
  | succ c ih =>
    intro x hx
    simp only [powers, List.mem_cons] at hx
    rcases hx with rfl | hx
    · exact ht
    · exact ih _ (hmm _ _ ht hM) x hx

theorem one_lt_pow_K {p : Params} (hp : p.Legal) : 1 < 2 ^ p.K := by
  have : 0 < p.K := Nat.mul_pos (by omega) (by omega)
  exact Nat.one_lt_two_pow (by omega)

theorem powerTable_lt {p : Params} {mm : Nat → Nat → Nat} {M : Nat} (hp : p.Legal) (hmm : Bounding p mm)
    (hM : M < 2 ^ p.K) : ∀ x ∈ powerTable p mm M, x < 2 ^ p.K := by
  intro x hx
  simp only [powerTable, List.mem_cons] at hx
  rcases hx with rfl | hx
  · exact one_lt_pow_K hp
  · exact powers_lt hmm hM _ _ hM x hx

theorem wordAt_lt {T : List Nat} {N : Nat} (hN : 0 < N) (h : ∀ x ∈ T, x < N) (j : Nat) : wordAt T j < N := by
  rw [wordAt, List.getD_eq_getElem?_getD]
  cases hj : T[j]? with
  | none => simpa using hN
  | some x => simpa using h x (List.mem_of_getElem? hj)

theorem squareTimes_lt {p : Params} {mm : Nat → Nat → Nat} (hmm : Bounding p mm) (c C : Nat) (hC : C < 2 ^ p.K) :
    squareTimes mm c C < 2 ^ p.K := by
  induction c generalizing C with
  | zero => exact hC
  | succ c ih => exact ih _ (hmm _ _ hC hC)

theorem squareCalls_lt {p : Params} {mm : Nat → Nat → Nat} (hmm : Bounding p mm) (c C : Nat) (hC : C < 2 ^ p.K) :
    ∀ ab ∈ squareCalls mm c C, ab.1 < 2 ^ p.K ∧ ab.2 < 2 ^ p.K := by
  induction c generalizing C with
  | zero => simp [squareCalls]
  | succ c ih =>
    intro ab hab
    simp only [squareCalls, List.mem_cons] at hab
    rcases hab with rfl | hab
    · exact ⟨hC, hC⟩
    · exact ih _ (hmm _ _ hC hC) ab hab

theorem expWinCalls_lt {p : Params} {mm : Nat → Nat → Nat} {T d : List Nat} (hmm : Bounding p mm)
    (hT : ∀ x ∈ T, x < 2 ^ p.K) (i C : Nat) (hC : C < 2 ^ p.K) :
    ∀ ab ∈ expWinCalls p mm T d i C, ab.1 < 2 ^ p.K ∧ ab.2 < 2 ^ p.K := by
  induction i generalizing C with
  | zero => simp [expWinCalls]
  | succ i ih =>
    have hsq := squareTimes_lt hmm p.r C hC
    have hw := fun j => wordAt_lt (Nat.two_pow_pos _) hT j
    intro ab hab
    simp only [expWinCalls, List.mem_append] at hab
    rcases hab with hab | hab | hab
    · exact squareCalls_lt hmm _ _ hC ab hab
    · split at hab
      · simp only [List.mem_singleton] at hab; subst hab; exact ⟨hsq, hw _⟩
      · simp at hab
    · refine ih _ ?_ ab hab
      unfold multiplyDigit; split
      · exact hmm _ _ hsq (hw _)
      · exact hsq

theorem expWinAllCalls_lt {p : Params} {mm : Nat → Nat → Nat} {M E : Nat} (hp : p.Legal) (hmm : Bounding p mm)
    (hM : M < 2 ^ p.K) : ∀ ab ∈ expWinAllCalls p mm M E, ab.1 < 2 ^ p.K ∧ ab.2 < 2 ^ p.K := by
  have hT := powerTable_lt hp hmm hM
  intro ab hab
  simp only [expWinAllCalls, List.mem_append] at hab
  rcases hab with hab | hab
  · simp only [powerCalls, List.mem_map] at hab
    obtain ⟨t, ht, rfl⟩ := hab
    exact ⟨hT t (List.mem_of_mem_tail (List.mem_of_mem_dropLast ht)), hM⟩
  · split at hab
    · simp at hab
    · exact expWinCalls_lt hmm hT _ _ (wordAt_lt (Nat.two_pow_pos _) hT _) ab hab

theorem afterExpBin_ok {p : Params} {h : Hidden} {n M E : Nat} (m : Multiplier) (hn0 : n ≠ 0) (hn : n < 2 ^ p.K)
    (hM : M < 2 ^ p.K) (hk : HiddenOk p h) : HiddenOk p (h.afterExpBin m p n M E) := by
  obtain ⟨h1, h2, h3, h4, -, h6, h7, -, h8⟩ := foldl_scratch_ok m hn0 hn _ h
    (expBinAllCalls_lt (E := E) (run_bounding m hn0 hn) hM) hk
  refine ⟨h1, h2, h3, h4, ?_, h6, h7, Nat.zero_le _, h8⟩
  change expBin _ _ _ < _
  rw [expBin_eq (run_exact m (Nat.pos_of_ne_zero hn0) hn) (Nat.pos_of_ne_zero hn0) hn hM]
  exact expTable_ok hn0 hn hM

theorem afterExpWin_ok {p : Params} {h : Hidden} {n M E : Nat} (hp : p.Legal) (m : Multiplier) (hn0 : n ≠ 0)
    (hn : n < 2 ^ p.K) (hM : M < 2 ^ p.K) (hE : E < 2 ^ p.K) (hk : HiddenOk p h) :
    HiddenOk p (h.afterExpWin m p n M E) := by
  have hb := run_bounding (p := p) m hn0 hn
  obtain ⟨h1, h2, h3, h4, -, -, h7, -, h8⟩ := foldl_scratch_ok m hn0 hn _ h (expWinAllCalls_lt (E := E) hp hb hM) hk
  refine ⟨h1, h2, h3, h4, ?_, ⟨length_powerTable hp.2.2.1, powerTable_lt hp hb hM⟩, h7, Nat.zero_le _, h8⟩
  change expWin _ _ _ _ < _
  rw [expWin_eq (run_exact m (Nat.pos_of_ne_zero hn0) hn) hp.2.2.1 (Nat.pos_of_ne_zero hn0) hn hM hE]
  exact expTable_ok hn0 hn hM

/-! ## A command's effect keeps the registers at their lengths and widths -/

theorem take_ok {p : Params} {ws : Words} (hl : ws.length = 2 * p.W) (hb : Bounded p.B ws) :
    WordsOk p p.W (ws.take p.W) :=
  ⟨by rw [List.length_take, hl]; omega, fun w hw => hb w (List.mem_of_mem_take hw)⟩

theorem ok_of_eq {p : Params} {N v : Nat} {ws : Words} (hN : N = p.W) (e : ws = big p.B N v) : WordsOk p p.W ws := by
  subst hN; rw [e]; exact big_ok _ _ _

/-- The words a command leaves in its destination are a register's. -/
theorem effect_dest_ok {s : State} (h : s.Wf) {i : Instr} {d : Reg} (hd : dest i = some d) :
    WordsOk s.cfg s.cfg.W ((effect i s).words d) := by
  have hB : 1 ≤ s.cfg.B := h.1.1.1
  have hw := words_ok h
  have hl := fun a b => (hw a).1.trans (hw b).1.symm
  cases i <;> simp only [dest, Option.some.injEq, reduceCtorEq] at hd <;> subst hd <;>
    simp only [effect, State.words, setHidden_x, setDig_x, setOvf_x, setValue_x, setWords_x, get_set_same]
  case mov d a => exact hw a
  case shl1 d a => exact ok_of_eq (hw a).1 (shl1Words_eq hB 0 (by omega) (hw a).2)
  case shr1 d a => exact ok_of_eq (hw a).1 (shr1Words_eq hB (hw a).2)
  case bshl d a m =>
    have e := bshlWords_eq m (hw a).2
    rw [(hw a).1] at e
    exact ok_of_eq rfl e
  case add d a b => exact ok_of_eq (hw a).1 (addWords_fst s.cfg.B _ _ 0 (hl a b))
  case sub d a b =>
    obtain ⟨h1, h2, -⟩ := subWords_spec 0 (by omega) (hl a b) (hw a).2 (hw b).2
    exact ⟨h1.trans (hw a).1, h2⟩
  case mul d a b =>
    obtain ⟨h1, h2, -⟩ := mulWords_spec (hw a).1 (hw b).1 (hw a).2 (hw b).2
    exact take_ok h1 h2
  all_goals exact big_ok _ _ _

theorem effect_words_other (i : Instr) (s : State) {r : Reg} (h : dest i ≠ some r) :
    (effect i s).words r = s.words r := by
  cases i <;> first | rfl | exact get_set_other _ _ (fun e => h (by rw [e]; rfl))

theorem effect_x_ok {s : State} (h : s.Wf) (i : Instr) :
    ∀ ws ∈ (effect i s).x.toList, WordsOk s.cfg s.cfg.W ws := by
  have hr : ∀ r, WordsOk s.cfg s.cfg.W ((effect i s).words r) := by
    intro r
    by_cases hd : dest i = some r
    · exact effect_dest_ok h hd
    · rw [effect_words_other i s hd]; exact words_ok h r
  intro ws hws
  simp only [Regs.toList, List.mem_cons, List.not_mem_nil, or_false] at hws
  rcases hws with rfl | rfl | rfl | rfl | rfl | rfl | rfl | rfl
  exacts [hr .x0, hr .x1, hr .x2, hr .x3, hr .x4, hr .x5, hr .x6, hr .x7]

theorem digits_ok (p : Params) (E : Nat) : (digits p E).length = p.dmax ∧ ∀ d ∈ digits p E, d < 2 ^ p.r := by
  refine ⟨length_digits p E, fun d hd => ?_⟩
  simp only [digits, List.mem_map] at hd
  obtain ⟨i, -, rfl⟩ := hd
  exact digit_lt p E i

theorem effect_dig_ok {s : State} (h : s.Wf) (i : Instr) :
    (effect i s).dig.length = s.cfg.dmax ∧ ∀ d ∈ (effect i s).dig, d < 2 ^ s.cfg.r := by
  cases i <;> first | exact h.2.2.1 | exact digits_ok _ _

theorem effect_hid_ok {s : State} (h : s.Wf) (i : Instr) (hf : checkFails i s = none) : HiddenOk s.cfg (effect i s).hid := by
  have hk := h.2.2.2.1
  have hv := value_lt h
  have hw := words_ok h
  have hn0 : ∀ n, modulus i = some n → s.value n ≠ 0 := by
    intro n hn h0
    cases i <;> simp only [modulus, Option.some.injEq, reduceCtorEq] at hn <;> subst hn <;>
      simp [checkFails, modulus, h0] at hf
  cases i
  case mul d a b =>
    obtain ⟨h1, h2, -⟩ := mulWords_spec (hw a).1 (hw b).1 (hw a).2 (hw b).2
    exact ⟨⟨h1, h2⟩, hk.2⟩
  case mod d a n => exact afterReduce_ok (lt_of_lt_of_le (hv a) (two_pow_K_le _)) (hn0 n rfl) (hv n) hk
  case mulmod d a b n => exact afterMulMod_ok (hv a) (hv b) (hn0 n rfl) (hv n) hk
  case expb d m e n => exact afterExpBin_ok _ (hn0 n rfl) (hv n) (hv m) hk
  case expbk d m e n => exact afterExpBin_ok _ (hn0 n rfl) (hv n) (hv m) hk
  case expw d m e n => exact afterExpWin_ok h.1 _ (hn0 n rfl) (hv n) (hv m) (hv e) hk
  case expwk d m e n => exact afterExpWin_ok h.1 _ (hn0 n rfl) (hv n) (hv m) (hv e) hk
  case blak d a b n => exact afterBlakley_ok (hv a) (hv b) (hn0 n rfl) (hv n) hk
  all_goals exact hk

/-! ## The host's transactions and reset -/

theorem issue_wf {s : State} (h : s.Wf) (c : BusWord) : (s.issue c).Wf := by
  obtain ⟨h1, h2, h3, ⟨k1, k2, k3, k4, k5, k6, k7, k8, -⟩, -⟩ := id h
  exact ⟨h1, h2, h3, ⟨k1, k2, k3, k4, k5, k6, k7, k8, value_lt h _, value_lt h _, value_lt h _⟩,
    by simp [StatusOk, Status.issued]⟩

theorem setHaz_wf {s : State} (h : s.Wf) (v : Bool) : (s.setHaz v).Wf := h

theorem setWord_wf {s : State} (h : s.Wf) (i : Reg) (j : Nat) (v : BusWord) : (s.setWord i j v).Wf := by
  refine ⟨h.1, ?_, h.2.2⟩
  intro ws hw
  rcases mem_set hw with rfl | hw
  · have := words_ok h i
    refine ⟨by simpa using this.1, fun w hw => ?_⟩
    rcases List.mem_or_eq_of_mem_set hw with hw | rfl
    · exact this.2 w hw
    · exact Nat.mod_lt _ (Nat.two_pow_pos _)
  · exact h.2.1 _ hw

/-- Every host write keeps the registers well-formed (20_memory.md R62, R63). -/
theorem memWrite_wf {s : State} (h : s.Wf) (addr : HostAddr) (v : BusWord) : (memWrite s addr v).Wf := by
  obtain ⟨-, e⟩ | ⟨-, -, e | e | ⟨-, -, e⟩ | ⟨i, j, -, e⟩⟩ := memWrite_cases s addr v <;> rw [e]
  · exact setHaz_wf h _
  · exact h
  · exact issue_wf h _
  · exact setHaz_wf h _
  · exact setWord_wf h _ _ _

/-- Every host read keeps the registers well-formed (20_memory.md R61). -/
theorem memRead_wf {s : State} (h : s.Wf) (addr : HostAddr) : (memRead s addr).2.Wf := by
  obtain ⟨-, e⟩ | ⟨-, v, -, e⟩ := memRead_cases s addr <;> rw [e]
  · exact setHaz_wf h _
  · exact h

theorem freeRegister_ok (p : Params) (k i : Nat) : WordsOk p p.W (freeRegister p k i) := by
  refine ⟨by simp [freeRegister], fun w hw => ?_⟩
  simp only [freeRegister, List.mem_map] at hw
  obtain ⟨j, -, rfl⟩ := hw
  exact Nat.mod_lt _ (Nat.two_pow_pos _)

theorem freeDig_ok (p : Params) (k : Nat) : (freeDig p k).length = p.dmax ∧ ∀ d ∈ freeDig p k, d < 2 ^ p.r := by
  refine ⟨by simp [freeDig], fun d hd => ?_⟩
  simp only [freeDig, List.mem_map] at hd
  obtain ⟨j, -, rfl⟩ := hd
  exact Nat.mod_lt _ (Nat.two_pow_pos _)

theorem freeHidden_ok (p : Params) (k : Nat) : HiddenOk p (freeHidden p k) := by
  have h := fun N v => Nat.mod_lt v (Nat.two_pow_pos N)
  refine ⟨⟨by simp [freeHidden], ?_⟩, h _ _, h _ _, Nat.le_of_lt_succ (Nat.mod_lt _ (Nat.succ_pos _)), h _ _,
    ⟨by simp [freeHidden], ?_⟩, h _ _, Nat.le_of_lt_succ (Nat.mod_lt _ (Nat.succ_pos _)), h _ _, h _ _, h _ _⟩ <;>
  · intro d hd
    simp only [freeHidden, List.mem_map] at hd
    obtain ⟨j, -, rfl⟩ := hd
    exact h _ _

/-- Reset leaves well-formed registers, whatever the free values are (10_state.md R40). -/
theorem hostReset_wf {s : State} (h : s.Wf) : s.hostReset.Wf := by
  refine ⟨h.1, ?_, freeDig_ok _ _, freeHidden_ok _ _, (by decide : StatusOk Status.reset)⟩
  intro ws hw
  simp only [hostReset_x, freeRegs, Regs.toList, List.mem_cons, List.not_mem_nil, or_false] at hw
  rcases hw with rfl | rfl | rfl | rfl | rfl | rfl | rfl | rfl <;> exact freeRegister_ok _ _ _

/-! ## What a command leaves alone -/

theorem effect_ovf (i : Instr) (s : State) (h : writesOvf i = false) : (effect i s).status = s.status := by
  cases i <;> first | rfl | simp [writesOvf] at h

theorem effect_sres (i : Instr) (s : State) (h : writesSres i = false) : (effect i s).sres = s.sres := by
  cases i <;> first | rfl | simp [writesSres] at h

theorem effect_dig (i : Instr) (s : State) (h : writesDig i = false) : (effect i s).dig = s.dig := by
  cases i <;> first | rfl | simp [writesDig] at h

theorem scratch_frame (m : Multiplier) (p : Params) (n : Nat) (h : Hidden) (ab : Nat × Nat) :
    (m.scratch p n h ab).opa = h.opa ∧ (m.scratch p n h ab).opb = h.opb ∧ (m.scratch p n h ab).opn = h.opn ∧
    (m.scratch p n h ab).acc = h.acc ∧ (m.scratch p n h ab).tbl = h.tbl ∧
    (m = .blakley → (m.scratch p n h ab).p = h.p ∧ (m.scratch p n h ab).rem = h.rem ∧ (m.scratch p n h ab).sm = h.sm ∧
      (m.scratch p n h ab).kcnt = h.kcnt) ∧
    (m = .mulReduce → (m.scratch p n h ab).rb = h.rb) := by
  cases m <;> refine ⟨rfl, rfl, rfl, rfl, rfl, ?_, ?_⟩ <;> intro e <;> first | rfl | exact ⟨rfl, rfl, rfl, rfl⟩ | cases e

/-- A run of the multiplier changes its own unit's registers only (10_state.md R35). -/
theorem foldl_scratch_frame (m : Multiplier) (p : Params) (n : Nat) (l : List (Nat × Nat)) (h : Hidden) :
    (l.foldl (m.scratch p n) h).opa = h.opa ∧ (l.foldl (m.scratch p n) h).opb = h.opb ∧
    (l.foldl (m.scratch p n) h).opn = h.opn ∧ (l.foldl (m.scratch p n) h).acc = h.acc ∧
    (l.foldl (m.scratch p n) h).tbl = h.tbl ∧
    (m = .blakley → (l.foldl (m.scratch p n) h).p = h.p ∧ (l.foldl (m.scratch p n) h).rem = h.rem ∧
      (l.foldl (m.scratch p n) h).sm = h.sm ∧ (l.foldl (m.scratch p n) h).kcnt = h.kcnt) ∧
    (m = .mulReduce → (l.foldl (m.scratch p n) h).rb = h.rb) := by
  induction l generalizing h with
  | nil => exact ⟨rfl, rfl, rfl, rfl, rfl, fun _ => ⟨rfl, rfl, rfl, rfl⟩, fun _ => rfl⟩
  | cons ab l ih =>
    obtain ⟨a1, a2, a3, a4, a5, a6, a7⟩ := ih (m.scratch p n h ab)
    obtain ⟨b1, b2, b3, b4, b5, b6, b7⟩ := scratch_frame m p n h ab
    rw [List.foldl_cons]
    exact ⟨a1.trans b1, a2.trans b2, a3.trans b3, a4.trans b4, a5.trans b5,
      fun e => ⟨(a6 e).1.trans (b6 e).1, (a6 e).2.1.trans (b6 e).2.1, (a6 e).2.2.1.trans (b6 e).2.2.1,
        (a6 e).2.2.2.trans (b6 e).2.2.2⟩, fun e => (a7 e).trans (b7 e)⟩

end Sys2Proof.Machine
end

