-- ==== Sys2Proof/Laws/PerInstr.lean ====
section
/-! SUPPORT. Laws/PerInstr.lean: what holds of every command as syntax, one lemma per constructor of Instr. Family
Roundtrip: the encoder's word of a well-formed command decodes to that command (30_encoding.md R94 to R96). -/

namespace Sys2Proof.Laws.Roundtrip

/-- The encoder's word of a well-formed command decodes to it. -/
def Statement (i : Instr) : Prop := i.wf = true → decode (encode i) = .ok i

/-- All fields of a format R word at once. -/
theorem fieldsR (op d a b n : Nat) (h : op < 256 ∧ d < 8 ∧ a < 8 ∧ b < 8 ∧ n < 8) :
    (opField (formatR op d a b n)).toNat = op ∧ (rdField (formatR op d a b n)).toNat = d ∧
    (rs1Field (formatR op d a b n)).toNat = a ∧ (rs2Field (formatR op d a b n)).toNat = b ∧
    (rs3Field (formatR op d a b n)).toNat = n ∧ (tailField (formatR op d a b n)).toNat = 0 := by
  obtain ⟨h0, h1, h2, h3, h4⟩ := h
  exact ⟨formatR_op h0 h1 h2 h3 h4, formatR_rd h0 h1 h2 h3 h4, formatR_rs1 h0 h1 h2 h3 h4,
    formatR_rs2 h0 h1 h2 h3 h4, formatR_rs3 h0 h1 h2 h3 h4, formatR_tail h0 h1 h2 h3 h4⟩

/-- All fields of a format I word at once. -/
theorem fieldsI (op d a imm : Nat) (h : op < 256 ∧ d < 8 ∧ a < 8 ∧ imm ≤ 65535) :
    (opField (formatI op d a imm)).toNat = op ∧ (rdField (formatI op d a imm)).toNat = d ∧
    (rs1Field (formatI op d a imm)).toNat = a ∧ (gapField (formatI op d a imm)).toNat = 0 ∧
    immField (formatI op d a imm) = imm := by
  obtain ⟨h0, h1, h2, h3⟩ := h
  exact ⟨formatI_op h0 h1 h2 h3, formatI_rd h0 h1 h2 h3, formatI_rs1 h0 h1 h2 h3, formatI_gap h0 h1 h2 h3,
    formatI_imm h0 h1 h2 h3⟩

theorem clr (d : Reg) : Statement (.clr d) := by
  intro _
  obtain ⟨h0, h1, h2, h3, h4, h5⟩ := fieldsR 0x01 d.num 0 0 0 ⟨by decide, d.num_lt, by decide, by decide, by decide⟩
  simp [encode, decode, whenUnusedZero, h0, Reg.ofField_of_toNat h1, field_eq_zero h2, field_eq_zero h3, field_eq_zero h4, field_eq_zero h5]

theorem ldi (d : Reg) (imm : Nat) : Statement (.ldi d imm) := by
  intro hw
  obtain ⟨h0, h1, h2, h3, h4⟩ := fieldsI 0x02 d.num 0 imm ⟨by decide, d.num_lt, by decide, of_decide_eq_true hw⟩
  simp [encode, decode, whenUnusedZero, h0, Reg.ofField_of_toNat h1, field_eq_zero h2, field_eq_zero h3, h4]

theorem mov (d a : Reg) : Statement (.mov d a) := by
  intro _
  obtain ⟨h0, h1, h2, h3, h4, h5⟩ := fieldsR 0x03 d.num a.num 0 0 ⟨by decide, d.num_lt, a.num_lt, by decide, by decide⟩
  simp [encode, decode, whenUnusedZero, h0, Reg.ofField_of_toNat h1, Reg.ofField_of_toNat h2, field_eq_zero h3, field_eq_zero h4, field_eq_zero h5]

theorem cmp (a b : Reg) : Statement (.cmp a b) := by
  intro _
  obtain ⟨h0, h1, h2, h3, h4, h5⟩ := fieldsR 0x10 0 a.num b.num 0 ⟨by decide, by decide, a.num_lt, b.num_lt, by decide⟩
  simp [encode, decode, whenUnusedZero, h0, field_eq_zero h1, Reg.ofField_of_toNat h2, Reg.ofField_of_toNat h3, field_eq_zero h4, field_eq_zero h5]

theorem getbit (a : Reg) (imm : Nat) : Statement (.getbit a imm) := by
  intro hw
  obtain ⟨h0, h1, h2, h3, h4⟩ := fieldsI 0x11 0 a.num imm ⟨by decide, by decide, a.num_lt, of_decide_eq_true hw⟩
  simp [encode, decode, whenUnusedZero, h0, field_eq_zero h1, Reg.ofField_of_toNat h2, field_eq_zero h3, h4]

theorem nbits (a : Reg) : Statement (.nbits a) := by
  intro _
  obtain ⟨h0, h1, h2, h3, h4, h5⟩ := fieldsR 0x12 0 a.num 0 0 ⟨by decide, by decide, a.num_lt, by decide, by decide⟩
  simp [encode, decode, whenUnusedZero, h0, field_eq_zero h1, Reg.ofField_of_toNat h2, field_eq_zero h3, field_eq_zero h4, field_eq_zero h5]

theorem shl1 (d a : Reg) : Statement (.shl1 d a) := by
  intro _
  obtain ⟨h0, h1, h2, h3, h4, h5⟩ := fieldsR 0x20 d.num a.num 0 0 ⟨by decide, d.num_lt, a.num_lt, by decide, by decide⟩
  simp [encode, decode, whenUnusedZero, h0, Reg.ofField_of_toNat h1, Reg.ofField_of_toNat h2, field_eq_zero h3, field_eq_zero h4, field_eq_zero h5]

theorem shr1 (d a : Reg) : Statement (.shr1 d a) := by
  intro _
  obtain ⟨h0, h1, h2, h3, h4, h5⟩ := fieldsR 0x21 d.num a.num 0 0 ⟨by decide, d.num_lt, a.num_lt, by decide, by decide⟩
  simp [encode, decode, whenUnusedZero, h0, Reg.ofField_of_toNat h1, Reg.ofField_of_toNat h2, field_eq_zero h3, field_eq_zero h4, field_eq_zero h5]

theorem bshl (d a : Reg) (imm : Nat) : Statement (.bshl d a imm) := by
  intro hw
  obtain ⟨h0, h1, h2, h3, h4⟩ := fieldsI 0x22 d.num a.num imm ⟨by decide, d.num_lt, a.num_lt, of_decide_eq_true hw⟩
  simp [encode, decode, whenUnusedZero, h0, Reg.ofField_of_toNat h1, Reg.ofField_of_toNat h2, field_eq_zero h3, h4]

theorem add (d a b : Reg) : Statement (.add d a b) := by
  intro _
  obtain ⟨h0, h1, h2, h3, h4, h5⟩ := fieldsR 0x30 d.num a.num b.num 0 ⟨by decide, d.num_lt, a.num_lt, b.num_lt, by decide⟩
  simp [encode, decode, whenUnusedZero, h0, Reg.ofField_of_toNat h1, Reg.ofField_of_toNat h2, Reg.ofField_of_toNat h3, field_eq_zero h4, field_eq_zero h5]

theorem sub (d a b : Reg) : Statement (.sub d a b) := by
  intro _
  obtain ⟨h0, h1, h2, h3, h4, h5⟩ := fieldsR 0x31 d.num a.num b.num 0 ⟨by decide, d.num_lt, a.num_lt, b.num_lt, by decide⟩
  simp [encode, decode, whenUnusedZero, h0, Reg.ofField_of_toNat h1, Reg.ofField_of_toNat h2, Reg.ofField_of_toNat h3, field_eq_zero h4, field_eq_zero h5]

theorem mul (d a b : Reg) : Statement (.mul d a b) := by
  intro _
  obtain ⟨h0, h1, h2, h3, h4, h5⟩ := fieldsR 0x40 d.num a.num b.num 0 ⟨by decide, d.num_lt, a.num_lt, b.num_lt, by decide⟩
  simp [encode, decode, whenUnusedZero, h0, Reg.ofField_of_toNat h1, Reg.ofField_of_toNat h2, Reg.ofField_of_toNat h3, field_eq_zero h4, field_eq_zero h5]

theorem mod (d a n : Reg) : Statement (.mod d a n) := by
  intro _
  obtain ⟨h0, h1, h2, h3, h4, h5⟩ := fieldsR 0x50 d.num a.num n.num 0 ⟨by decide, d.num_lt, a.num_lt, n.num_lt, by decide⟩
  simp [encode, decode, whenUnusedZero, h0, Reg.ofField_of_toNat h1, Reg.ofField_of_toNat h2, Reg.ofField_of_toNat h3, field_eq_zero h4, field_eq_zero h5]

theorem mulmod (d a b n : Reg) : Statement (.mulmod d a b n) := by
  intro _
  obtain ⟨h0, h1, h2, h3, h4, h5⟩ := fieldsR 0x51 d.num a.num b.num n.num ⟨by decide, d.num_lt, a.num_lt, b.num_lt, n.num_lt⟩
  simp [encode, decode, whenUnusedZero, h0, Reg.ofField_of_toNat h1, Reg.ofField_of_toNat h2, Reg.ofField_of_toNat h3, Reg.ofField_of_toNat h4, field_eq_zero h5]

theorem expb (d m e n : Reg) : Statement (.expb d m e n) := by
  intro _
  obtain ⟨h0, h1, h2, h3, h4, h5⟩ := fieldsR 0x60 d.num m.num e.num n.num ⟨by decide, d.num_lt, m.num_lt, e.num_lt, n.num_lt⟩
  simp [encode, decode, whenUnusedZero, h0, Reg.ofField_of_toNat h1, Reg.ofField_of_toNat h2, Reg.ofField_of_toNat h3, Reg.ofField_of_toNat h4, field_eq_zero h5]

theorem expbk (d m e n : Reg) : Statement (.expbk d m e n) := by
  intro _
  obtain ⟨h0, h1, h2, h3, h4, h5⟩ := fieldsR 0x61 d.num m.num e.num n.num ⟨by decide, d.num_lt, m.num_lt, e.num_lt, n.num_lt⟩
  simp [encode, decode, whenUnusedZero, h0, Reg.ofField_of_toNat h1, Reg.ofField_of_toNat h2, Reg.ofField_of_toNat h3, Reg.ofField_of_toNat h4, field_eq_zero h5]

theorem expw (d m e n : Reg) : Statement (.expw d m e n) := by
  intro _
  obtain ⟨h0, h1, h2, h3, h4, h5⟩ := fieldsR 0x70 d.num m.num e.num n.num ⟨by decide, d.num_lt, m.num_lt, e.num_lt, n.num_lt⟩
  simp [encode, decode, whenUnusedZero, h0, Reg.ofField_of_toNat h1, Reg.ofField_of_toNat h2, Reg.ofField_of_toNat h3, Reg.ofField_of_toNat h4, field_eq_zero h5]

theorem expwk (d m e n : Reg) : Statement (.expwk d m e n) := by
  intro _
  obtain ⟨h0, h1, h2, h3, h4, h5⟩ := fieldsR 0x71 d.num m.num e.num n.num ⟨by decide, d.num_lt, m.num_lt, e.num_lt, n.num_lt⟩
  simp [encode, decode, whenUnusedZero, h0, Reg.ofField_of_toNat h1, Reg.ofField_of_toNat h2, Reg.ofField_of_toNat h3, Reg.ofField_of_toNat h4, field_eq_zero h5]

theorem decomp (e : Reg) : Statement (.decomp e) := by
  intro _
  obtain ⟨h0, h1, h2, h3, h4, h5⟩ := fieldsR 0x72 0 e.num 0 0 ⟨by decide, by decide, e.num_lt, by decide, by decide⟩
  simp [encode, decode, whenUnusedZero, h0, field_eq_zero h1, Reg.ofField_of_toNat h2, field_eq_zero h3, field_eq_zero h4, field_eq_zero h5]

theorem blak (d a b n : Reg) : Statement (.blak d a b n) := by
  intro _
  obtain ⟨h0, h1, h2, h3, h4, h5⟩ := fieldsR 0x80 d.num a.num b.num n.num ⟨by decide, d.num_lt, a.num_lt, b.num_lt, n.num_lt⟩
  simp [encode, decode, whenUnusedZero, h0, Reg.ofField_of_toNat h1, Reg.ofField_of_toNat h2, Reg.ofField_of_toNat h3, Reg.ofField_of_toNat h4, field_eq_zero h5]

end Sys2Proof.Laws.Roundtrip
end

