-- ==== Sys2Proof/Tests/Slice0.lean ====
section
/-! SUPPORT. Tests/Slice0.lean: the model against the spec's own worked words and vectors (95_test_vectors.md), each test
one step; the well-formedness checks' refusals; and, for every obligation with hypotheses, states that meet them. -/

namespace Sys2Proof.Tests

open Sys2Proof Sys2Proof.Machine Sys2Proof.Config

/-! ## Small states -/

/-- A freshly reset build `p` with values in `x1`, `x2`, `x3` and 0xA5 elsewhere, as the vectors assume. -/
def rig (p : Params) (v1 v2 v3 : Nat) : State :=
  let w := fun v => big p.B p.W v
  State.resetWith p ⟨w 0xA5, w v1, w v2, w v3, w 0xA5, w 0xA5, w 0xA5, w 0xA5⟩ (digAtReset p) (Hidden.atReset p)

/-- What a step or a command leaves, if it has a next state. -/
def next? : Result → Option State
  | .next t => some t
  | _ => none

/-- The state after the command word `c` has been issued and completed. -/
def after (s : State) (c : Nat) : Option State := next? (step (s.withFetchWord 32 c))

/-- `x0` read as its words, OVF and ERRCODE after a command. -/
def outcome (s : State) (c : Nat) : Option (Words × Bool × Nat) :=
  (after s c).map fun t => (t.words .x0, t.status.ovf, t.status.errcode.toNat)

/-- SRES after a command. -/
def scalar (s : State) (c : Nat) : Option BusWord := (after s c).map fun t => t.sres

/-- The values the host has read after `k` steps with its script and a schedule. -/
def reads (s : State) (script : List HostAction) (sched : List Agent) (k : Nat) : Option (List BusWord) :=
  (next? (Host.Core.run core k { s with script := script, sched := sched })).map fun t => t.replies

/-! ## Well-formedness: each check refuses an ill-formed command (30_encoding.md R92, R99) -/

theorem test_wf_ldi : (Instr.ldi .x1 65536).wf = false ∧ (Instr.ldi .x1 65535).wf = true := by decide
theorem test_wf_getbit : (Instr.getbit .x1 65536).wf = false ∧ (Instr.getbit .x1 65535).wf = true := by decide
theorem test_wf_bshl : (Instr.bshl .x1 .x2 65536).wf = false ∧ (Instr.bshl .x1 .x2 65535).wf = true := by decide

/-! ## Decoding: a word of each command written out from the pattern column of 30_encoding.md R94 -/

theorem test_decode_clr : decode 0b00000001101000000000000000000000 = .ok (.clr .x5) := by decide
theorem test_decode_ldi : decode 0b00000010111000001000000000000001 = .ok (.ldi .x7 32769) := by decide
theorem test_decode_mov : decode 0b00000011000010000000000000000000 = .ok (.mov .x0 .x2) := by decide
theorem test_decode_cmp : decode 0b00010000000001010000000000000000 = .ok (.cmp .x1 .x2) := by decide
theorem test_decode_getbit : decode 0b00010001000010000000000000000011 = .ok (.getbit .x2 3) := by decide
theorem test_decode_nbits : decode 0b00010010000110000000000000000000 = .ok (.nbits .x6) := by decide
theorem test_decode_shl1 : decode 0b00100000001001000000000000000000 = .ok (.shl1 .x1 .x1) := by decide
theorem test_decode_shr1 : decode 0b00100001010001000000000000000000 = .ok (.shr1 .x2 .x1) := by decide
theorem test_decode_bshl : decode 0b00100010001001000000000000000010 = .ok (.bshl .x1 .x1 2) := by decide
theorem test_decode_add : decode 0b00110000011001010000000000000000 = .ok (.add .x3 .x1 .x2) := by decide
theorem test_decode_sub : decode 0b00110001011010001000000000000000 = .ok (.sub .x3 .x2 .x1) := by decide
theorem test_decode_mul : decode 0b01000000011001001000000000000000 = .ok (.mul .x3 .x1 .x1) := by decide
theorem test_decode_mod : decode 0b01010000000001011000000000000000 = .ok (.mod .x0 .x1 .x3) := by decide
theorem test_decode_mulmod : decode 0b01010001000001010011000000000000 = .ok (.mulmod .x0 .x1 .x2 .x3) := by decide
theorem test_decode_expb : decode 0b01100000000001010011000000000000 = .ok (.expb .x0 .x1 .x2 .x3) := by decide
theorem test_decode_expbk : decode 0b01100001101001010011000000000000 = .ok (.expbk .x5 .x1 .x2 .x3) := by decide
theorem test_decode_expw : decode 0b01110000000001011011000000000000 = .ok (.expw .x0 .x1 .x3 .x3) := by decide
theorem test_decode_expwk : decode 0b01110001111001010011000000000000 = .ok (.expwk .x7 .x1 .x2 .x3) := by decide
theorem test_decode_decomp : decode 0b01110010000010000000000000000000 = .ok (.decomp .x2) := by decide
theorem test_decode_blak : decode 0b10000000000001010011000000000000 = .ok (.blak .x0 .x1 .x2 .x3) := by decide

/-- 30_encoding.md R96: the all-zero and the all-ones word, and a bit that must be 0, are illegal. -/
theorem test_decode_illegal :
    decode 0x00000000 = .error .unassignedOpcode ∧ decode 0xFFFFFFFF = .error .unassignedOpcode ∧
    decode 0x30650001 = .error .unusedFieldNotZero ∧ decode 0x02210005 = .error .unusedFieldNotZero := by decide

/-- 30_encoding.md R99, R102: the text of a worked command, and the word of another. -/
theorem test_asm : (Instr.add .x3 .x1 .x2).asm = "ADD x3, x1, x2" ∧ encode (.expb .x0 .x1 .x2 .x3) = 0x60053000 :=
  ⟨rfl, by decide⟩

/-! ## Commands: vectors of 95_test_vectors.md, by their names there -/

/-- V-CON-1. -/
theorem test_clr : outcome (rig rc0 0 0 0) 0x01000000 = some ([0x0, 0x0], false, 0) := by decide
/-- V-CON-4. -/
theorem test_ldi : outcome (rig rc0 0 0 0) 0x020000A5 = some ([0x5, 0xA], false, 0) := by decide
/-- V-CON-5: bits of the immediate from `K` up are dropped. -/
theorem test_ldi_drops : (after (rig rc0 0 0 0) 0x02801234).map (fun t => t.words .x4) = some [0x4, 0x3] := by decide
/-- V-CON-9. -/
theorem test_mov : outcome (rig rc1 0 0x100000000 0) 0x03080000 = some ([0, 1, 0, 0], false, 0) := by decide
/-- V-CMP-2, V-CMP-4. -/
theorem test_cmp : scalar (rig rc0 0x0F 0x10 0) 0x10050000 = some 0xFFFFFFFF ∧
    scalar (rig rc0 0x80 0x7F 0) 0x10050000 = some 0x00000001 := by decide
/-- V-BIT-4, V-BIT-5: the top bit, and the first bit above the register. -/
theorem test_getbit : scalar (rig rc0 0x80 0 0) 0x11040007 = some 1 ∧
    scalar (rig rc0 0x80 0 0) 0x11040008 = some 0 := by decide
/-- V-NB-1, V-NB-7. -/
theorem test_nbits : scalar (rig rc0 0 0 0) 0x12040000 = some 0 ∧
    scalar (rig rc1 0x100000000 0 0) 0x12040000 = some 33 := by decide
/-- V-SH-14: a bit moves across every word boundary. -/
theorem test_shl1 : outcome (rig rc1 0x000000008000000080000000_80000001 0 0) 0x20040000 =
    some ([0x00000002, 0x00000001, 0x00000001, 0x00000001], false, 0) := by decide
/-- V-SH-17. -/
theorem test_shr1 : outcome (rig rc1 0x00000001000000010000000100000001 0 0) 0x21040000 =
    some ([0x80000000, 0x80000000, 0x80000000, 0x00000000], false, 0) := by decide
/-- V-SH-9, V-SH-11: the top word is lost; a shift of `W` words or more gives 0. -/
theorem test_bshl : outcome (rig rc0 0xAB 0 0) 0x22040001 = some ([0x0, 0xB], false, 0) ∧
    outcome (rig rc0 0xAB 0 0) 0x2204FFFF = some ([0x0, 0x0], false, 0) := by decide
/-- V-ADD-1, V-ADD-2. -/
theorem test_add : outcome (rig rc0 0x0F 0x01 0) 0x30050000 = some ([0x0, 0x1], false, 0) ∧
    outcome (rig rc0 0xFF 0x01 0) 0x30050000 = some ([0x0, 0x0], true, 0) := by decide
/-- V-SUB-1, V-SUB-3: a borrow across words; Underflow keeps `x0`. -/
theorem test_sub : outcome (rig rc0 0x10 0x01 0) 0x31050000 = some ([0xF, 0x0], false, 0) ∧
    outcome (rig rc0 0x00 0x01 0) 0x31050000 = some ([0x5, 0xA], false, 2) := by decide
/-- V-MUL-1, V-MUL-7. -/
theorem test_mul : outcome (rig rc0 0x0F 0x0F 0) 0x40050000 = some ([0x1, 0xE], false, 0) ∧
    outcome (rig rc0 0x0D 0x14 0) 0x40050000 = some ([0x4, 0x0], true, 0) := by decide
/-- The full product behind V-MUL-3 (43_multiply.md R160), in P. -/
theorem test_mul_product :
    (after (rig rc0 0xFF 0xFF 0) 0x40050000).map (fun t => t.hid.p) = some [0x1, 0x0, 0xE, 0xF] := by decide
/-- V-MOD-4 with its least `k`, V-MOD-10. -/
theorem test_mod : outcome (rig rc0 0xC8 0 0x03) 0x50058000 = some ([0x2, 0x0], false, 0) ∧
    (after (rig rc0 0xC8 0 0x03) 0x50058000).map (fun t => t.hid.kcnt) = some 7 ∧
    outcome (rig rc0 0x05 0 0x00) 0x50058000 = some ([0x5, 0xA], false, 3) := by decide
/-- V-MM-3, MULMOD: the product is reduced in full. -/
theorem test_mulmod : outcome (rig rc0 0xC8 0x64 0x4D) 0x51053000 = some ([0x9, 0x3], false, 0) := by decide
/-- V-MM-7, BLAK: the added operand is not below the modulus. -/
theorem test_blak : outcome (rig rc0 0x06 0x1B 0x0A) 0x80053000 = some ([0x2, 0x0], false, 0) := by decide
/-- V-MM-9, BLAK. -/
theorem test_blak_zero : outcome (rig rc0 0x09 0x09 0x00) 0x80053000 = some ([0x5, 0xA], false, 3) := by decide
/-- V-EXP-6, V-EXP-9 (the base of exponent 1 is not reduced). -/
theorem test_expb : outcome (rig rc0 5 3 13) 0x60053000 = some ([8, 0], false, 0) ∧
    outcome (rig rc0 0x14 1 0x0D) 0x60053000 = some ([0x4, 0x1], false, 0) := by decide
/-- V-EXP-15: a zero modulus is refused before the zero exponent. -/
theorem test_expb_zero : outcome (rig rc0 9 0 0) 0x60053000 = some ([0x5, 0xA], false, 3) := by decide
/-- V-EXP-8, V-EXP-11. -/
theorem test_expbk : outcome (rig rc0 2 10 200) 0x61053000 = some ([0x8, 0x1], false, 0) ∧
    outcome (rig rc0 9 0 1) 0x61053000 = some ([1, 0], false, 0) := by decide
/-- V-EXP-10, and the digits of its exponent (46_exp_windowed.md R199). -/
theorem test_expw : outcome (rig rc0 0x14 2 0x0D) 0x70053000 = some ([0xA, 0x0], false, 0) ∧
    (after (rig rc0 0x14 2 0x0D) 0x70053000).map (fun t => t.dig) = some [2, 0, 0, 0] := by decide
/-- V-EXP-8. -/
theorem test_expwk : outcome (rig rc0 2 10 200) 0x71053000 = some ([0x8, 0x1], false, 0) := by decide
/-- V-DEC-3, V-DEC-7. -/
theorem test_decomp : (after (rig rc0 0x0B 0 0) 0x72040000).map (fun t => (t.dig, t.sres)) = some ([3, 2, 0, 0], 2) ∧
    (after (rig rc0 0x80 0 0) 0x72040000).map (fun t => (t.dig, t.sres)) = some ([0, 0, 0, 2], 4) := by decide
/-- V-ILL-1: STATUS reads 0x106 after an illegal word. -/
theorem test_illegal : (after (rig rc0 0 0 0) 0x00000000).map (fun t => t.status.word) = some 0x00000106 := by decide

/-! ## Reset, the decoder's table words, and the host port -/

/-- 10_state.md R40; the default build of 00_scope.md R7. -/
theorem test_reset : State.reset.cmd = 0 ∧ State.reset.status.word = 0 ∧ State.reset.sres = 0 ∧
    State.reset.cfg = ⟨32, 4, 2⟩ := by decide
theorem test_table_word : decodeTableWord 32 0x30650000 = some (.add .x3 .x1 .x2) ∧
    decodeTableWord 32 0 = none := by decide
/-- The reference builds' CFG words, DMAX and M_ARY (95_test_vectors.md). -/
theorem test_cfg : cfgWord rc0 = 0x00020204 ∧ cfgWord rc1 = 0x00040220 ∧ cfgWord rc2 = 0x00040320 ∧
    rc0.dmax = 4 ∧ rc1.dmax = 64 ∧ rc2.dmax = 43 ∧ rc2.mAry = 8 := by decide
/-- Program P5: `setw` drops bits 31:4, an unmapped word reads 0 and sets HAZ, and a write of 1 to bit 4 clears it. -/
theorem test_window :
    reads (rig rc0 0 0 0) [.setw .x5 0 0xFFFFFFAB, .getw .x5 0, .rd 0x8002, .rd 0x0001, .wr 0x0001 0x10, .rd 0x0001] [] 6 =
      some [0x0000000B, 0, 0x00000010, 0] := by decide
/-- 95_test_vectors.md part 4, run A: the completion comes after the stray accesses. -/
theorem test_busy_window_a :
    reads (rig rc0 0x0B 0 0)
      [.issue (.shl1 .x1 .x1), .getw .x1 0, .rd 0x0001, .wr 0x0000 0x01200000, .wr 0x0001 0x10, .wait, .getw .x1 0,
        .getw .x1 1, .rd 0x0000] [.host, .host, .host, .host, .host, .core] 10 =
      some [0, 0x00000011, 0x00000012, 0x6, 0x1, 0x20240000] := by decide
/-- 95_test_vectors.md part 4, run B: the completion comes at once. -/
theorem test_busy_window_b :
    reads (rig rc0 0x0B 0 0)
      [.issue (.shl1 .x1 .x1), .getw .x1 0, .rd 0x0001, .wr 0x0000 0x01200000, .wr 0x0001 0x10, .wait, .getw .x1 0,
        .getw .x1 1, .rd 0x0000] [.host, .core, .host, .host, .host, .host, .core] 11 =
      some [0x6, 0x00000002, 0x00000012, 0, 0, 0x01200000] := by decide

/-! ## Witnesses: for each obligation with hypotheses, inputs that meet them -/

/-- RC0 with 6, 7 and 10 in `x1`, `x2`, `x3`. -/
def s0 : State := rig rc0 6 7 10

/-- `s0` with a command word in flight. -/
def busyWith (c : BusWord) : State := s0.issue c

/-- `s0` with a host script. -/
def withScript (script : List HostAction) : State := { s0 with script := script }

theorem witness_wf : s0.Wf ∧ (busyWith 0x30050000).Wf ∧ (rig rc0 0 0 0).Wf :=
  ⟨by decide, by decide, by decide⟩
theorem witness_latched : (busyWith 0x51053000).Latched ∧ (busyWith 0x51053000).status.busy = true := by decide

theorem witness_DecodeOfEncodeIsTheCommand : (Instr.bshl .x7 .x0 65535).wf = true ∧ (Instr.ldi .x0 0).wf = true := by decide
theorem witness_EncodeOfDecodeIsTheWord : decode 0x2204FFFF = .ok (.bshl .x0 .x1 65535) := by decide
theorem witness_DecodeFollowsMatchAndMask :
    decode 0x72040000 = .ok (.decomp .x1) ∧ ⟨"DECOMP", 0x72000000, 0xFFE3FFFF⟩ ∈ opcodeTable ∧
    OpcodeRow.Matches ⟨"DECOMP", 0x72000000, 0xFFE3FFFF⟩ 0x72040000 := by decide
theorem witness_StepCompletesTheDecodedCommand :
    let s := busyWith 0x30050000
    s.cfg.Legal ∧ s.status.busy = true ∧ s.nextAgent = .core ∧ decode s.cmd = .ok (.add .x0 .x1 .x2) := by decide
theorem witness_IllegalWordEndsInIllegalCommand :
    let s := busyWith 0x30050001
    s.cfg.Legal ∧ s.status.busy = true ∧ s.nextAgent = .core ∧ decode s.cmd = .error .unusedFieldNotZero := by decide
theorem witness_WriteToCmdWhileIdleIssues : s0.status.busy = false := by decide
theorem witness_StepPerformsTheHostsAction :
    s0.cfg.Legal ∧ (withScript [.rd 0x9000]).nextAgent = .host ∧ (withScript [.rd 0x9000]).script = [.rd 0x9000] ∧
    (withScript [.wr 0x9000 5]).nextAgent = .host ∧ (withScript [.reset]).nextAgent = .host ∧
    ({ busyWith 0x30050000 with script := [.reset], sched := [.host] } : State).nextAgent = .host := by decide
theorem witness_WaitRepeatsUntilBusyReadsZero :
    (withScript [.wait]).nextAgent = .host ∧ (withScript [.wait]).status.busy = false ∧
    ({ busyWith 0x30050000 with script := [.wait], sched := [.host] } : State).nextAgent = .host := by decide
theorem witness_IdleMachineWaits : s0.cfg.Legal ∧ s0.status.busy = false ∧ s0.sched = [] ∧ s0.script = [] := by decide
theorem witness_BusyCoreBecomesIdle :
    let s : State := { busyWith 0x30050000 with script := [.wait], sched := [.host, .host] }
    s.cfg.Legal ∧ s.status.busy = true := by decide
theorem witness_EveryStepOfALegalBuildIsDefined :
    s0.cfg.Legal ∧ ¬ ({ s0 with cfg := ⟨33, 2, 2⟩ } : State).cfg.Legal := by decide
theorem witness_RegisterMapFollowsTheTable :
    rc0.Legal ∧ locate rc0 0x0004 = .unmapped ∧ locate rc0 0x3FFF = .unmapped ∧ locate rc0 0x4000 = .dig 0 ∧
    locate rc0 0x4003 = .dig 3 ∧ locate rc0 0x4004 = .unmapped ∧ locate rc0 0x7FFF = .unmapped ∧
    locate rc0 0x8000 = .word .x0 0 ∧ locate rc0 0x8001 = .word .x0 1 ∧ locate rc0 0x8002 = .unmapped ∧
    locate rc0 0x8FFF = .unmapped ∧ locate rc0 0xF001 = .word .x7 1 ∧ locate rc0 0xFFFF = .unmapped := by decide
theorem witness_OperandWindowReadsAndWritesOneWord : s0.Wf ∧ s0.status.busy = false ∧ 1 < s0.cfg.W := by decide
theorem witness_ViolationsSetHazAndNothingElse :
    (busyWith 0x30050000).status.busy = true ∧ (0x0000 : HostAddr) ≠ 0x0001 ∧ locate s0.cfg 0x8002 = .unmapped := by decide
theorem witness_ReadOnlyLocationsIgnoreWrites : s0.status.busy = false ∧ locate s0.cfg 0x4003 = .dig 3 := by decide
theorem witness_ConfigurationReadsBack :
    s0.cfg.Legal ∧ s0.status.busy = false ∧ ∃ t, step (withScript [.rd 0x0003]) = .next t :=
  ⟨by decide, by decide, _, rfl⟩
theorem witness_ResultsReadBack : s0.Wf ∧ s0.status.busy = false ∧ 0 < s0.cfg.dmax ∧ 3 < s0.cfg.dmax := by decide
/-- HAZ set by a violation, and cleared by the host. -/
theorem witness_HazFollowsTheHostOnly :
    let s := withScript [.rd 0x8002]
    let u : State := { (withScript [.wr 0x0001 0x10]).setHaz true with cmd := 0 }
    (∃ t, step s = .next t ∧ s.status.haz = false ∧ t.status.haz = true) ∧
    ∃ t, step u = .next t ∧ u.status.haz = true ∧ t.status.haz = false :=
  ⟨⟨_, rfl, by decide⟩, ⟨_, rfl, by decide⟩⟩
theorem witness_ResetEndsTheCommandInFlight :
    let s : State := { busyWith 0x30050000 with script := [.reset], sched := [.host] }
    s.cfg.Legal ∧ s.status.busy = true ∧ nextAction s = some .reset ∧ nextAction (withScript [.reset]) = some .reset := by
  decide
theorem witness_ResetIsWellFormed :
    rc0.Legal ∧ (∀ ws ∈ s0.x.toList, WordsOk rc0 rc0.W ws) ∧ (s0.dig.length = rc0.dmax ∧ ∀ d ∈ s0.dig, d < 2 ^ rc0.r) ∧
    HiddenOk rc0 s0.hid := by decide
/-- A completion, and a host write, from well-formed and latched states. -/
theorem witness_StepKeepsStatesWellFormed :
    ((busyWith 0x70053000).Wf ∧ ∃ t, step (busyWith 0x70053000) = .next t) ∧
    (withScript [.setw .x1 1 0xFF]).Wf ∧ ∃ t, step (withScript [.setw .x1 1 0xFF]) = .next t :=
  ⟨⟨by decide, _, rfl⟩, by decide, _, rfl⟩
theorem witness_StepKeepsOperandCopies :
    (withScript [.issue (.add .x0 .x1 .x2)]).Latched ∧
    ∃ t, step (withScript [.issue (.add .x0 .x1 .x2)]) = .next t ∧ t.status.busy = true := ⟨by decide, _, rfl, rfl⟩
theorem witness_NothingMovesWhileBusy :
    let s : State := { busyWith 0x30050000 with script := [.setw .x1 0 0], sched := [.host] }
    s.status.busy = true ∧ ∃ t, step s = .next t ∧ t.status.busy = true := ⟨rfl, _, rfl, rfl⟩
theorem witness_ErrorsArePrecise :
    s0.Wf ∧ errorOf (.sub .x0 .x1 .x2) s0 = some .underflow ∧
    errorOf (.mod .x0 .x1 .x3) (rig rc0 6 7 0) = some .degenerateModulus ∧ (rig rc0 6 7 0).Wf :=
  ⟨by decide, by decide, by decide, by decide⟩
theorem witness_CommandsWithoutErrorSucceed :
    errorOf (.sub .x0 .x2 .x1) s0 = none ∧ errorOf (.blak .x0 .x1 .x2 .x3) s0 = none ∧ errorOf (.clr .x0) s0 = none := by
  decide
theorem witness_SubUnderflows : s0.Wf ∧ s0.value .x1 < s0.value .x2 := by decide
theorem witness_ZeroModulusIsRefusedFirst : (rig rc0 6 0 0).value .x3 = 0 ∧ (rig rc0 6 0 0).value .x2 = 0 := by decide
/-- OnlyTheDestinationRegisterChanges, OnlyAddAndMulWriteOvf, SresAndDigHaveTheirWriters, CommandsLeaveTheHostSideAlone,
RegisterMapFrame: a command that writes `x0`, one that ends in an error, and the registers
and flags each leaves. -/
theorem witness_frames :
    (∃ t, exec (.add .x0 .x1 .x2) s0 = .next t ∧ dest (.add .x0 .x1 .x2) ≠ some .x1) ∧
    (∃ t, exec (.cmp .x1 .x2) s0 = .next t ∧ dest (.cmp .x1 .x2) ≠ some .x1 ∧ writesOvf (.cmp .x1 .x2) = false ∧
      writesDig (.cmp .x1 .x2) = false) ∧
    (∃ t, exec (.sub .x0 .x1 .x2) s0 = .next t ∧ writesSres (.sub .x0 .x1 .x2) = false ∧ t.status.err = true) ∧
    (∃ t, exec (.expw .x0 .x1 .x2 .x3) (rig rc0 6 7 0) = .next t ∧ t.status.err = true) :=
  ⟨⟨_, rfl, by decide⟩, ⟨_, rfl, by decide⟩, ⟨_, rfl, by decide⟩, ⟨_, rfl, by decide⟩⟩
/-- HiddenRegistersHaveTheirUsers: MULMOD meets the guard of the IDX clause, BLAK those of the clauses on P and REM. -/
theorem witness_HiddenRegistersHaveTheirUsers :
    ((∃ t, exec (.mulmod .x0 .x1 .x2 .x3) s0 = .next t) ∧ ∀ d a b n, Instr.mulmod .x0 .x1 .x2 .x3 ≠ .blak d a b n ∧
      Instr.mulmod .x0 .x1 .x2 .x3 ≠ .expb d a b n ∧ Instr.mulmod .x0 .x1 .x2 .x3 ≠ .expbk d a b n ∧
      Instr.mulmod .x0 .x1 .x2 .x3 ≠ .expw d a b n ∧ Instr.mulmod .x0 .x1 .x2 .x3 ≠ .expwk d a b n) ∧
    (∃ t, exec (.blak .x0 .x1 .x2 .x3) s0 = .next t) ∧ (∀ d a b, Instr.blak .x0 .x1 .x2 .x3 ≠ .mul d a b) ∧
      (∀ d a n, Instr.blak .x0 .x1 .x2 .x3 ≠ .mod d a n) ∧ ∀ d a b n, Instr.blak .x0 .x1 .x2 .x3 ≠ .mulmod d a b n ∧
      Instr.blak .x0 .x1 .x2 .x3 ≠ .expb d a b n ∧ Instr.blak .x0 .x1 .x2 .x3 ≠ .expw d a b n :=
  ⟨⟨⟨_, rfl⟩, by simp⟩, ⟨_, rfl⟩, by simp, by simp, by simp⟩
/-- Two states that agree on the sources of a command and on nothing else. -/
theorem witness_OutcomeDependsOnNamedRegistersOnly :
    let u : State := { (rig rc0 6 7 11).setHaz true with sres := 1 }
    s0.cfg = u.cfg ∧ (∀ r ∈ sources (.add .x0 .x1 .x2), s0.words r = u.words r) ∧
    (∃ t, exec (.add .x0 .x1 .x2) s0 = .next t) ∧ ∃ t, exec (.add .x0 .x1 .x2) u = .next t :=
  ⟨by decide, by decide, ⟨_, rfl⟩, ⟨_, rfl⟩⟩
/-- CompareResult, GetbitResult, NbitsResult, ShiftResults, AddResult, MulResult, DecompResult, CompareIsAntisymmetric: a
well-formed state is all they ask; the boundary operands 0 and `2^K - 1`. -/
theorem witness_results : (rig rc0 0 0xFF 0xFF).Wf ∧ (rig rc0 0xFF 0xFF 0).Wf ∧ (rig rc0 0 0xFF 0xFF).value .x1 = 0 ∧
    (rig rc0 0 0xFF 0xFF).value .x2 ≠ 0 := ⟨by decide, by decide, by decide, by decide⟩
theorem witness_SubResult : s0.Wf ∧ s0.value .x1 ≤ s0.value .x2 ∧ s0.value .x1 ≤ s0.value .x1 ∧
    s0.value .x1 < s0.value .x2 := by decide
/-- ModResult, MulmodResult, BlakResult, ExponentiationsAgree: a non-zero modulus, also 1 and one below the operands (a zero
one: witness_ZeroModulusIsRefusedFirst, witness_ErrorsArePrecise). -/
theorem witness_moduli : s0.Wf ∧ s0.value .x3 ≠ 0 ∧ (rig rc0 6 7 1).Wf ∧ (rig rc0 6 7 1).value .x3 ≠ 0 ∧
    (rig rc0 0xFF 0xFF 5).Wf ∧ (rig rc0 0xFF 0xFF 5).value .x3 ≠ 0 :=
  ⟨by decide, by decide, by decide, by decide, by decide, by decide⟩
/-- BinaryExponentiationResult, WindowedExponentiationResult: the exponents 0, 1 and above. -/
theorem witness_exponents : (rig rc0 9 0 1).Wf ∧ (rig rc0 9 0 1).value .x3 ≠ 0 ∧ (rig rc0 9 0 1).value .x2 = 0 ∧
    (rig rc0 0x14 1 0x0D).Wf ∧ (rig rc0 0x14 1 0x0D).value .x2 = 1 ∧ 2 ≤ (rig rc0 5 2 13).value .x2 ∧
    (rig rc0 5 2 13).Wf ∧ Instr.expbk .x0 .x1 .x2 .x3 ∈ [Instr.expb .x0 .x1 .x2 .x3, .expbk .x0 .x1 .x2 .x3] ∧
    Instr.expwk .x0 .x1 .x2 .x3 ∈ [Instr.expw .x0 .x1 .x2 .x3, .expwk .x0 .x1 .x2 .x3] :=
  ⟨by decide, by decide, by decide, by decide, by decide, by decide, by decide, by decide, by decide⟩
theorem witness_SubThenAddRestores : s0.Wf ∧ s0.value .x1 ≤ s0.value .x2 ∧ Reg.x0 ≠ Reg.x1 := by decide
theorem witness_ShiftRoundTrip : (rig rc0 0x7F 0 0).Wf ∧ 2 * (rig rc0 0x7F 0 0).value .x1 < 2 ^ rc0.K := by decide
/-- Steps with `b` below the modulus and not below it. -/
theorem witness_BlakleyStepsAreRepeatedSubtraction :
    1 ≤ 10 ∧ 10 < 2 ^ rc0.K ∧ 6 < 2 ^ rc0.K ∧ 7 < 2 ^ rc0.K ∧ 27 < 2 ^ rc0.K ∧ 9 < 10 ∧ 7 < 10 ∧ ¬ 27 < 10 := by decide
theorem witness_MultiplicationCounts : rc0.Legal ∧ 10 ≠ 0 ∧ 10 < 2 ^ rc0.K := by decide

end Sys2Proof.Tests
end

section
/-! PROOFS of the family 10_state.md: the step, the invariants of every step, what a command leaves unchanged, reset. The
first parts are the layer the obligations stand on: what the step is at each turn, what every step that answers has done,
and what a host action keeps. -/

namespace Sys2Proof.Machine

open Sys2Proof.Config (Params)

/-! ## What the step is, turn by turn (10_state.md R43, R45; 20_memory.md R70) -/

/-- A turn nobody uses: the core's while it is idle, or the host's with nothing left to do (log 10). -/
abbrev State.TurnUnused (s : State) : Prop :=
  (s.nextAgent = .core ∧ s.status.busy = false) ∨ (s.nextAgent = .host ∧ s.script = [])

theorem turn_cases (s : State) :
    (s.nextAgent = .core ∧ s.status.busy = true) ∨ s.TurnUnused ∨
    ∃ act rest, s.nextAgent = .host ∧ s.script = act :: rest := by
  cases ha : s.nextAgent with
  | core =>
    cases hb : s.status.busy with
    | true => exact .inl ⟨rfl, rfl⟩
    | false => exact .inr (.inl (.inl ⟨ha, hb⟩))
  | host =>
    cases hs : s.script with
    | nil => exact .inr (.inl (.inr ⟨ha, hs⟩))
    | cons act rest => exact .inr (.inr ⟨act, rest, rfl, rfl⟩)

theorem step_completion_turn {s : State} (hl : s.cfg.Legal) (ha : s.nextAgent = .core) (hb : s.status.busy = true) :
    step s = match decode s.cmd with
      | .ok i => exec i s.takeTurn
      | .error _ => raiseError .illegalCommand s.takeTurn := by
  have ht : s.nextTurn = .completion s.takeTurn := by simp only [State.nextTurn, ha, if_pos hb]
  cases hd : decode s.cmd <;> simp only [step, if_pos hl, ht, State.fetchCommand, takeTurn_cmd, hd]

theorem step_unused_turn {s : State} (hl : s.cfg.Legal) (h : s.TurnUnused) : step s = .next s.takeTurn := by
  obtain ⟨ha, hb⟩ | ⟨ha, hs⟩ := h
  · simp [step, hl, State.nextTurn, ha, hb]
  · simp [step, hl, State.nextTurn, ha, hs]

/-- The state in which the host performs an action: the turn and the action are taken (logs 7, 8). -/
def State.takeAction (s : State) (rest : List HostAction) : State := { s.takeTurn with script := rest }

@[simp] theorem takeAction_status (s : State) (rest : List HostAction) : (s.takeAction rest).status = s.status := rfl

theorem step_action_turn {s : State} {act : HostAction} {rest : List HostAction} (hl : s.cfg.Legal)
    (ha : s.nextAgent = .host) (hs : s.script = act :: rest) : step s = .next ((s.takeAction rest).hostAct act) := by
  simp [step, hl, State.nextTurn, ha, hs, State.takeAction]

/-- What a step that answers has done: completed the command in flight, let an unused turn pass, or performed the host's
next action. -/
theorem step_next_cases {s t : State} (h : step s = .next t) :
    (nextAction s = none ∧
      ((∃ i, exec i s.takeTurn = .next t) ∨ t = { s.takeTurn with status := s.status.failed .illegalCommand })) ∨
    (nextAction s = none ∧ t = s.takeTurn) ∨
    (∃ act rest, nextAction s = some act ∧ t = (s.takeAction rest).hostAct act) := by
  obtain ⟨-, -, hn, e⟩ | ⟨hn, e⟩ | ⟨act, rest, -, -, hn, e⟩ := step_cases (legal_of_step h)
  · rw [e] at h
    refine .inl ⟨hn, ?_⟩
    cases hd : decode s.cmd with
    | ok i => rw [hd] at h; exact .inl ⟨i, h⟩
    | error e => rw [hd] at h; exact .inr (by simpa using h.symm)
  · exact .inr (.inl ⟨hn, Host.Outcome.next.inj (h.symm.trans e)⟩)
  · exact .inr (.inr ⟨act, rest, hn, Host.Outcome.next.inj (h.symm.trans e)⟩)

/-- A completion, in success or with an error, ends in an idle core that keeps what `Completes` names. -/
theorem completion_completes {s t : State}
    (h : (∃ i, exec i s = .next t) ∨ t = { s with status := s.status.failed .illegalCommand }) : Completes s t := by
  obtain ⟨i, h⟩ | rfl := h
  · exact exec_completes h
  · exact completes_failed s _

/-! ## An idle write, by location (20_memory.md R62) -/

/-- What a write while idle does at a location; `memWrite_idle` ties it to the model. -/
def State.store (s : State) (v : BusWord) : Location → State
  | .cmd => s.issue v
  | .status => if v.getLsbD 4 then s.setHaz false else s
  | .sres => s
  | .cfg => s
  | .dig _ => s
  | .word i j => s.setWord i j v
  | .unmapped => s.setHaz true

theorem memWrite_busy {s : State} (hb : s.status.busy = true) (addr : HostAddr) (v : BusWord) :
    memWrite s addr v = s.setHaz true := if_pos hb

theorem memWrite_idle {s : State} (hb : s.status.busy = false) (addr : HostAddr) (v : BusWord) :
    memWrite s addr v = s.store v (locate s.cfg addr) := by
  rw [memWrite, if_neg (by simp [hb])]
  cases locate s.cfg addr <;> rfl

/-! ## What every host action keeps -/

theorem memWrite_keeps (s : State) (addr : HostAddr) (v : BusWord) :
    (memWrite s addr v).cfg = s.cfg ∧ (memWrite s addr v).sched = s.sched := by
  obtain ⟨-, e⟩ | ⟨-, -, e | e | ⟨-, -, e⟩ | ⟨i, j, -, e⟩⟩ := memWrite_cases s addr v <;> rw [e] <;> exact ⟨rfl, rfl⟩

theorem hostAct_keeps (s : State) (act : HostAction) :
    (s.hostAct act).cfg = s.cfg ∧ (s.hostAct act).sched = s.sched := by
  obtain ⟨_, _, -, -, -, e⟩ | ⟨_, -, -, e⟩ | ⟨addr, v, -, e⟩ | ⟨-, e⟩ | ⟨-, e⟩ := hostAct_cases s act <;> rw [e]
  case inr.inr.inl => exact memWrite_keeps s addr v
  all_goals exact ⟨rfl, rfl⟩

/-- Every step keeps the parameters and takes one turn from the schedule. -/
theorem step_keeps {s t : State} (h : step s = .next t) : t.cfg = s.cfg ∧ t.sched = s.sched.tail := by
  obtain ⟨-, hc⟩ | ⟨-, rfl⟩ | ⟨act, rest, -, rfl⟩ := step_next_cases h
  · have c := completion_completes hc
    exact ⟨c.cfg, c.sched⟩
  · exact ⟨rfl, rfl⟩
  · exact hostAct_keeps _ act

theorem hostAct_wf {s : State} (h : s.Wf) (act : HostAction) : (s.hostAct act).Wf := by
  cases act with
  | rd addr => exact memRead_wf h addr
  | wr addr v => exact memWrite_wf h addr v
  | wait => rw [hostAct_wait]; exact h
  | reset => exact hostReset_wf h

/-- The two ways to clear HAZ: reset, and writing 1 to STATUS bit 4 while idle (10_state.md R31). -/
abbrev ClearsHaz (s : State) (act : HostAction) : Prop :=
  act = .reset ∨ ∃ v : BusWord, act = .wr statusAddr v ∧ v.getLsbD 4 = true ∧ s.status.busy = false

/-- HAZ after a host action: cleared, by an action that is no violation, or else kept and raised by violations only (R66). -/
theorem hostAct_haz (s : State) (act : HostAction) :
    (ClearsHaz s act ∧ violates s act = false ∧ (s.hostAct act).status.haz = false) ∨
    (s.hostAct act).status.haz = (s.status.haz || violates s act) := by
  obtain ⟨_, _, -, hv, -, e⟩ | ⟨_, -, hv, e⟩ | ⟨addr, v, rfl, e⟩ | ⟨rfl, e⟩ | ⟨rfl, e⟩ := hostAct_cases s act
  · right; simp [e, hv]
  · right; simp [e, hv]
  · rw [e]
    obtain ⟨hv, e⟩ | ⟨hv, hb, e | e | ⟨rfl, h4, e⟩ | ⟨i, j, -, e⟩⟩ := memWrite_cases s addr v
    · right; simp [e, hv]
    · right; simp [e, hv]
    · right; simp [e, hv, Status.issued]
    · left; exact ⟨.inr ⟨v, rfl, h4, hb⟩, hv, by rw [e]; rfl⟩
    · right; simp [e, hv]
  · right; simp [e, violates]
  · left; exact ⟨.inl rfl, rfl, by rw [e]; rfl⟩

/-- The operand copies follow every host action: an issue latches them anew, and while busy no register moves. -/
theorem hostAct_latched {s : State} (h : s.Latched) (act : HostAction) : (s.hostAct act).Latched := by
  obtain ⟨_, _, -, -, -, e⟩ | ⟨_, -, -, e⟩ | ⟨addr, v, -, e⟩ | ⟨-, e⟩ | ⟨-, e⟩ := hostAct_cases s act <;> rw [e]
  · exact h
  · exact h
  · obtain ⟨-, e⟩ | ⟨-, hb, e | e | ⟨-, -, e⟩ | ⟨i, j, -, e⟩⟩ := memWrite_cases s addr v <;> rw [e]
    · exact h
    · exact h
    · exact fun _ => ⟨rfl, rfl, rfl⟩
    · exact h
    · exact fun hb' => by simp [hb] at hb'
  · exact h
  · exact fun hb => by simp [Status.reset] at hb

/-- What R44 freezes while a command is in flight. -/
abbrev SameWork (s t : State) : Prop :=
  t.x = s.x ∧ t.dig = s.dig ∧ t.sres = s.sres ∧ t.status.ovf = s.status.ovf ∧ t.cmd = s.cmd

/-- While busy every host action but reset leaves the frozen registers alone: each write is a violation (R66). -/
theorem hostAct_sameWork {s : State} (hb : s.status.busy = true) (act : HostAction)
    (ht : (s.hostAct act).status.busy = true) : SameWork s (s.hostAct act) := by
  obtain ⟨_, _, -, -, -, e⟩ | ⟨_, -, -, e⟩ | ⟨addr, v, -, e⟩ | ⟨-, e⟩ | ⟨-, e⟩ := hostAct_cases s act
  · rw [e]; exact ⟨rfl, rfl, rfl, rfl, rfl⟩
  · rw [e]; exact ⟨rfl, rfl, rfl, rfl, rfl⟩
  · obtain ⟨-, e'⟩ | ⟨-, hb', -⟩ := memWrite_cases s addr v
    · rw [e, e']; exact ⟨rfl, rfl, rfl, rfl, rfl⟩
    · simp [hb] at hb'
  · rw [e]; exact ⟨rfl, rfl, rfl, rfl, rfl⟩
  · simp [e, Status.reset] at ht

/-! ## Well-formed states (10_state.md R22, R27, R28, R34, R35) -/

theorem statusOk_completed (t : Status) : StatusOk t.completed := by simp [StatusOk, Status.completed]

theorem statusOk_failed (t : Status) (e : CmdError) : StatusOk (t.failed e) := by
  cases e <;> simp [StatusOk, Status.failed, CmdError.code]

theorem failed_wf {s : State} (h : s.Wf) (e : CmdError) : State.Wf { s with status := s.status.failed e } :=
  ⟨h.1, h.2.1, h.2.2.1, h.2.2.2.1, statusOk_failed _ e⟩

theorem effect_cfg (i : Instr) (s : State) : (effect i s).cfg = s.cfg := by cases i <;> rfl

theorem exec_wf {i : Instr} {s t : State} (h : s.Wf) (he : exec i s = .next t) : t.Wf := by
  obtain ⟨e, -, rfl⟩ | ⟨hf, rfl⟩ := exec_cases he
  · exact failed_wf h e
  · have hc := effect_cfg i s
    simp only [State.Wf, hc]
    exact ⟨h.1, effect_x_ok h i, effect_dig_ok h i, effect_hid_ok h i hf, statusOk_completed _⟩

/-- Settles O25: a completion, a passed turn and a host action each keep the state well-formed. -/
theorem stepKeepsStatesWellFormed : Obligations.StepKeepsStatesWellFormed := by
  intro s t h hs
  have hu : s.takeTurn.Wf := h
  obtain ⟨-, ⟨i, he⟩ | rfl⟩ | ⟨-, rfl⟩ | ⟨act, rest, -, rfl⟩ := step_next_cases hs
  · exact exec_wf hu he
  · exact failed_wf hu _
  · exact hu
  · exact hostAct_wf (s := s.takeAction rest) h act

/-! ## The hidden registers are invisible (10_state.md R35, 70_reset_and_hazards.md R263) -/

theorem checkFails_setHidden (i : Instr) (s : State) (h : Hidden) : checkFails i (s.setHidden h) = checkFails i s := by
  cases i <;> rfl

/-- No command's effect but on the hidden registers depends on them. -/
theorem effect_setHidden (i : Instr) (s : State) (h : Hidden) :
    ∃ h', effect i (s.setHidden h) = (effect i s).setHidden h' := by
  cases i <;> exact ⟨_, rfl⟩

theorem raiseError_setHidden (e : CmdError) (s : State) (h : Hidden) :
    visibleResult (raiseError e (s.setHidden h)) = visibleResult (raiseError e s) := rfl

theorem succeed_setHidden (s : State) (h : Hidden) :
    visibleResult (succeed (s.setHidden h)) = visibleResult (succeed s) := rfl

theorem exec_setHidden (i : Instr) (s : State) (h : Hidden) :
    visibleResult (exec i (s.setHidden h)) = visibleResult (exec i s) := by
  rw [exec_eq, exec_eq, checkFails_setHidden]
  cases checkFails i s with
  | some e => exact raiseError_setHidden e s h
  | none =>
    obtain ⟨h', e⟩ := effect_setHidden i s h
    simp only [e]
    exact succeed_setHidden _ h'

theorem content_setHidden (s : State) (h : Hidden) (l : Location) : (s.setHidden h).content l = s.content l := by
  cases l <;> rfl

theorem memRead_setHidden (s : State) (h : Hidden) (addr : HostAddr) :
    memRead (s.setHidden h) addr = ((memRead s addr).1, (memRead s addr).2.setHidden h) := by
  simp only [memRead, State.peek, content_setHidden, setHidden_status, setHidden_cfg]
  split
  · rfl
  · cases s.content (locate s.cfg addr) <;> rfl

theorem store_setHidden (s : State) (h : Hidden) (v : BusWord) (l : Location) :
    ∃ h', (s.setHidden h).store v l = (s.store v l).setHidden h' := by
  cases l with
  | status => exact ⟨h, by by_cases h4 : v.getLsbD 4 = true <;> simp only [State.store, h4] <;> rfl⟩
  | _ => exact ⟨_, rfl⟩

theorem memWrite_setHidden (s : State) (h : Hidden) (addr : HostAddr) (v : BusWord) :
    ∃ h', memWrite (s.setHidden h) addr v = (memWrite s addr v).setHidden h' := by
  cases hb : s.status.busy with
  | true => exact ⟨h, by rw [memWrite_busy hb, memWrite_busy (s := s.setHidden h) hb]; rfl⟩
  | false =>
    rw [memWrite_idle hb, memWrite_idle (s := s.setHidden h) hb]
    exact store_setHidden s h v _

theorem takeAction_setHidden (s : State) (h : Hidden) (rest : List HostAction) :
    (s.setHidden h).takeAction rest = (s.takeAction rest).setHidden h := rfl

theorem hostAct_setHidden (s : State) (h : Hidden) (act : HostAction) :
    ∃ h', (s.setHidden h).hostAct act = (s.hostAct act).setHidden h' := by
  cases act with
  | rd addr => exact ⟨h, by simp only [State.hostAct, State.hostRead, memRead_setHidden]; rfl⟩
  | wr addr v => exact memWrite_setHidden s h addr v
  | wait => exact ⟨h, by rw [hostAct_wait, hostAct_wait]; rfl⟩
  | reset => exact ⟨s.hostReset.hid, rfl⟩

/-- Settles O38: at every turn the step commutes with a change of the hidden registers, up to what these then hold. -/
theorem hiddenStateIsInvisible : Obligations.HiddenStateIsInvisible := by
  intro s h
  by_cases hl : s.cfg.Legal
  case neg => rw [step_illegal hl, step_illegal (s := s.setHidden h) hl]
  case pos =>
    obtain ⟨ha, hb⟩ | hu | ⟨act, rest, ha, hs⟩ := turn_cases s
    · rw [step_completion_turn hl ha hb, step_completion_turn (s := s.setHidden h) hl ha hb, setHidden_cmd]
      cases decode s.cmd with
      | ok i => exact exec_setHidden i s.takeTurn h
      | error e => exact raiseError_setHidden _ s.takeTurn h
    · rw [step_unused_turn hl hu, step_unused_turn (s := s.setHidden h) hl hu]
      rfl
    · rw [step_action_turn hl ha hs, step_action_turn (s := s.setHidden h) hl ha hs]
      obtain ⟨h', e⟩ := hostAct_setHidden (s.takeAction rest) h act
      rw [takeAction_setHidden, e]
      rfl

/-! ## The step (10_state.md R43, R45) -/

/-- Settles O5: a completion turn whose word decodes. -/
theorem stepCompletesTheDecodedCommand : Obligations.StepCompletesTheDecodedCommand := by
  intro s i hl hb ha hd
  rw [step_completion_turn hl ha hb, hd]
  rfl

theorem memRead_replies (s : State) (addr : HostAddr) : (memRead s addr).2.replies = s.replies := by
  obtain ⟨-, e⟩ | ⟨-, v, -, e⟩ := memRead_cases s addr <;> simp [e]

/-- Settles O8: the host's turn, one action at a time. -/
theorem stepPerformsTheHostsAction : Obligations.StepPerformsTheHostsAction := by
  intro s act rest hl ha hs
  have hstep := step_action_turn hl ha hs
  refine ⟨?_, ?_, ?_⟩
  · rintro addr rfl
    have hr : (memRead (s.takeAction rest) addr).2.replies = s.replies := memRead_replies _ addr
    rw [hstep, State.hostAct, State.hostRead, State.reply, hr]
    rfl
  · rintro addr v rfl
    exact hstep
  · rintro rfl
    exact hstep

theorem step_defined {s : State} (hl : s.cfg.Legal) : ∃ t, step s = .next t := by
  obtain ⟨ha, hb⟩ | hu | ⟨act, rest, ha, hs⟩ := turn_cases s
  · rw [step_completion_turn hl ha hb]
    cases decode s.cmd with
    | ok i => exact exec_next i _
    | error e => exact ⟨_, rfl⟩
  · exact ⟨_, step_unused_turn hl hu⟩
  · exact ⟨_, step_action_turn hl ha hs⟩

/-- Settles O12: each of the three kinds of turn has a next state. -/
theorem everyStepOfALegalBuildIsDefined : Obligations.EveryStepOfALegalBuildIsDefined :=
  fun _ => ⟨step_defined, step_illegal⟩

/-- With the schedule used up the next step of a busy core is its completion. -/
theorem step_completes_of_sched_nil {s t : State} (hb : s.status.busy = true) (hq : s.sched = [])
    (h : step s = .next t) : t.status.busy = false := by
  have ha : s.nextAgent = .core := by simp [State.nextAgent, hq, hb]
  rw [step_completion_turn (legal_of_step h) ha hb] at h
  cases hd : decode s.cmd with
  | ok i => rw [hd] at h; exact (exec_completes h).busy
  | error e => rw [hd] at h; simp only [raiseError_next, Host.Outcome.next.injEq] at h; rw [← h]; rfl

/-- Settles O11, by induction on the schedule: each step takes one turn from it, and once it is used up the turn is the
core's. -/
theorem busyCoreBecomesIdle : Obligations.BusyCoreBecomesIdle := by
  intro s hl hb
  induction hq : s.sched generalizing s with
  | nil =>
    obtain ⟨t, ht⟩ := step_defined hl
    exact ⟨1, by simp, t, run_succ core 0 ht, step_completes_of_sched_nil hb hq ht⟩
  | cons a rest ih =>
    obtain ⟨t, ht⟩ := step_defined hl
    cases hbt : t.status.busy with
    | false => exact ⟨1, by simp, t, run_succ core 0 ht, hbt⟩
    | true =>
      obtain ⟨hc, hs⟩ := step_keeps ht
      obtain ⟨k, hk, u, hu, hub⟩ := ih t (hc ▸ hl) hbt (by rw [hs, hq]; rfl)
      exact ⟨k + 1, by simpa using hk, u, (run_succ core k ht).trans hu, hub⟩

/-! ## Invariants of every step -/

/-- Settles O26: a completion leaves the core idle; a host action keeps or renews the copies. -/
theorem stepKeepsOperandCopies : Obligations.StepKeepsOperandCopies := by
  intro s t h hs
  obtain ⟨-, hc⟩ | ⟨-, rfl⟩ | ⟨act, rest, -, rfl⟩ := step_next_cases hs
  · exact fun hb => absurd hb (by simp [(completion_completes hc).busy])
  · exact h
  · exact hostAct_latched (s := s.takeAction rest) h act

/-- Settles O27: a completion would leave the core idle, so the step is a passed turn or a host action. -/
theorem nothingMovesWhileBusy : Obligations.NothingMovesWhileBusy := by
  intro s t hb hs ht
  obtain ⟨-, hc⟩ | ⟨-, rfl⟩ | ⟨act, rest, -, rfl⟩ := step_next_cases hs
  · simp [(completion_completes hc).busy] at ht
  · exact ⟨rfl, rfl, rfl, rfl, rfl⟩
  · exact hostAct_sameWork (s := s.takeAction rest) hb act ht

theorem violates_takeAction (s : State) (rest : List HostAction) (act : HostAction) :
    violates (s.takeAction rest) act = violates s act := by
  cases act <;> rfl

/-- Settles O21: a step with no host action keeps HAZ, and a host action moves it as hostAct_haz says. -/
theorem hazFollowsTheHostOnly : Obligations.HazFollowsTheHostOnly := by
  intro s t hs
  obtain ⟨hn, hc⟩ | ⟨hn, rfl⟩ | ⟨act, rest, hn, rfl⟩ := step_next_cases hs
  · have hz : t.status.haz = s.status.haz := (completion_completes hc).haz
    exact ⟨fun h => by simp [hz, h, hn], fun h h' => by simp [hz, h] at h'⟩
  · exact ⟨fun h => by simp [h, hn], fun h h' => by simp [h] at h'⟩
  · obtain ⟨hcl, hv, e⟩ | e := hostAct_haz (s.takeAction rest) act <;> rw [violates_takeAction] at *
    · refine ⟨fun _ => by simp [e, hn, hv], fun _ _ => ?_⟩
      obtain rfl | ⟨v, rfl, h4, hb⟩ := hcl
      · exact .inl hn
      · exact .inr ⟨v, hn, h4, hb⟩
    · exact ⟨fun h => by simp [e, h, hn], fun h h' => by simp [e, h] at h'⟩

/-! ## What a command leaves unchanged -/

/-- Settles O29: the entry check is the command's error condition, and without it the completion is a success. -/
theorem commandsWithoutErrorSucceed : Obligations.CommandsWithoutErrorSucceed := by
  intro i s hw he
  refine ⟨{ effect i s with status := (effect i s).status.completed }, ?_, rfl, rfl, rfl, rfl⟩
  rw [exec_eq, checkFails_eq hw, he]
  rfl

/-- Settles O32: an error writes no register, and a command's effect writes its destination. -/
theorem onlyTheDestinationRegisterChanges : Obligations.OnlyTheDestinationRegisterChanges := by
  intro i s t h r hr
  obtain ⟨e, -, rfl⟩ | ⟨-, rfl⟩ := exec_cases h
  · rfl
  · exact effect_words_other i s hr

/-- A field that neither completion writes, and that a command's effect keeps unless the command is one of its writers,
keeps its value under every other command and under every error. -/
theorem exec_keeps {α : Type} (f : State → α) (hc : ∀ s : State, f { s with status := s.status.completed } = f s)
    (hf : ∀ (s : State) (e : CmdError), f { s with status := s.status.failed e } = f s) {writes : Instr → Bool}
    (he : ∀ i s, writes i = false → f (effect i s) = f s) {i : Instr} {s t : State} (h : exec i s = .next t)
    (hw : writes i = false ∨ t.status.err = true) : f t = f s := by
  obtain ⟨e, -, rfl⟩ | ⟨-, rfl⟩ := exec_cases h
  · exact hf s e
  · obtain hw | herr := hw
    · rw [hc, he i s hw]
    · cases herr

/-- Settles O33: only the effects of ADD and MUL write OVF, and no completion does. -/
theorem onlyAddAndMulWriteOvf : Obligations.OnlyAddAndMulWriteOvf := fun _ _ _ h =>
  exec_keeps (fun s => s.status.ovf) (fun _ => rfl) (fun _ _ => rfl) (fun i s hw => by rw [effect_ovf i s hw]) h

/-- Settles O34: each of the two is written by its writers' effects and by no completion. -/
theorem sresAndDigHaveTheirWriters : Obligations.SresAndDigHaveTheirWriters := fun _ _ _ h =>
  ⟨exec_keeps State.sres (fun _ => rfl) (fun _ _ => rfl) effect_sres h,
    exec_keeps State.dig (fun _ => rfl) (fun _ _ => rfl) effect_dig h⟩

/-- Settles O35: these are the fields every completion keeps. -/
theorem commandsLeaveTheHostSideAlone : Obligations.CommandsLeaveTheHostSideAlone := by
  intro i s t h
  have c := exec_completes h
  exact ⟨c.cmd, c.haz, c.cfg, c.script, c.sched, c.replies, c.freeIx⟩

/-! ### The hidden registers (10_state.md R35) -/

theorem foldl_scratch_operands (m : Multiplier) (p : Params) (n : Nat) (l : List (Nat × Nat)) (h : Hidden) :
    (l.foldl (m.scratch p n) h).opa = h.opa ∧ (l.foldl (m.scratch p n) h).opb = h.opb ∧
    (l.foldl (m.scratch p n) h).opn = h.opn := by
  obtain ⟨ha, hb, hn, -⟩ := foldl_scratch_frame m p n l h
  exact ⟨ha, hb, hn⟩

theorem foldl_scratch_tbl (m : Multiplier) (p : Params) (n : Nat) (l : List (Nat × Nat)) (h : Hidden) :
    (l.foldl (m.scratch p n) h).tbl = h.tbl := by
  obtain ⟨-, -, -, -, ht, -⟩ := foldl_scratch_frame m p n l h
  exact ht

theorem foldl_scratch_blakley (p : Params) (n : Nat) (l : List (Nat × Nat)) (h : Hidden) :
    (l.foldl (Multiplier.blakley.scratch p n) h).p = h.p ∧ (l.foldl (Multiplier.blakley.scratch p n) h).rem = h.rem ∧
    (l.foldl (Multiplier.blakley.scratch p n) h).sm = h.sm ∧
    (l.foldl (Multiplier.blakley.scratch p n) h).kcnt = h.kcnt := by
  obtain ⟨-, -, -, -, -, hk, -⟩ := foldl_scratch_frame .blakley p n l h
  exact hk rfl

theorem foldl_scratch_mulReduce (p : Params) (n : Nat) (l : List (Nat × Nat)) (h : Hidden) :
    (l.foldl (Multiplier.mulReduce.scratch p n) h).rb = h.rb := by
  obtain ⟨-, -, -, -, -, -, hk⟩ := foldl_scratch_frame .mulReduce p n l h
  exact hk rfl

section HiddenUsers

variable (i : Instr) (s : State)

theorem effect_operands : (effect i s).hid.opa = s.hid.opa ∧ (effect i s).hid.opb = s.hid.opb ∧
    (effect i s).hid.opn = s.hid.opn := by
  cases i with
  | expb d a b n | expbk d a b n | expw d a b n | expwk d a b n => exact foldl_scratch_operands _ _ _ _ _
  | _ => exact ⟨rfl, rfl, rfl⟩

theorem effect_p (hm : ∀ d a b, i ≠ .mul d a b)
    (hu : ∀ d a b n, i ≠ .mulmod d a b n ∧ i ≠ .expb d a b n ∧ i ≠ .expw d a b n) :
    (effect i s).hid.p = s.hid.p := by
  cases i with
  | mul d a b => exact absurd rfl (hm d a b)
  | mulmod d a b n | expb d a b n | expw d a b n => simpa using hu d a b n
  | expbk d a b n | expwk d a b n => exact (foldl_scratch_blakley _ _ _ _).1
  | _ => rfl

theorem effect_reduction (hm : ∀ d a n, i ≠ .mod d a n)
    (hu : ∀ d a b n, i ≠ .mulmod d a b n ∧ i ≠ .expb d a b n ∧ i ≠ .expw d a b n) :
    (effect i s).hid.rem = s.hid.rem ∧ (effect i s).hid.sm = s.hid.sm ∧ (effect i s).hid.kcnt = s.hid.kcnt := by
  cases i with
  | mod d a n => exact absurd rfl (hm d a n)
  | mulmod d a b n | expb d a b n | expw d a b n => simpa using hu d a b n
  | expbk d a b n | expwk d a b n => exact (foldl_scratch_blakley _ _ _ _).2
  | _ => exact ⟨rfl, rfl, rfl⟩

theorem effect_rb (hu : ∀ d a b n, i ≠ .blak d a b n ∧ i ≠ .expbk d a b n ∧ i ≠ .expwk d a b n) :
    (effect i s).hid.rb = s.hid.rb := by
  cases i with
  | blak d a b n | expbk d a b n | expwk d a b n => simpa using hu d a b n
  | expb d a b n | expw d a b n => exact foldl_scratch_mulReduce _ _ _ _
  | _ => rfl

theorem effect_tbl (hu : ∀ d a b n, i ≠ .expw d a b n ∧ i ≠ .expwk d a b n) : (effect i s).hid.tbl = s.hid.tbl := by
  cases i with
  | expw d a b n | expwk d a b n => simpa using hu d a b n
  | expb d a b n | expbk d a b n => exact foldl_scratch_tbl _ _ _ _ _
  | _ => rfl

theorem effect_acc
    (hu : ∀ d a b n, i ≠ .expb d a b n ∧ i ≠ .expbk d a b n ∧ i ≠ .expw d a b n ∧ i ≠ .expwk d a b n) :
    (effect i s).hid.acc = s.hid.acc := by
  cases i with
  | expb d a b n | expbk d a b n | expw d a b n | expwk d a b n => simpa using hu d a b n
  | _ => rfl

theorem effect_idx (hu : ∀ d a b n, i ≠ .blak d a b n ∧ i ≠ .expb d a b n ∧ i ≠ .expbk d a b n ∧ i ≠ .expw d a b n ∧
    i ≠ .expwk d a b n) : (effect i s).hid.idx = s.hid.idx := by
  cases i with
  | blak d a b n | expb d a b n | expbk d a b n | expw d a b n | expwk d a b n => simpa using hu d a b n
  | _ => rfl

end HiddenUsers

/-- Settles O37: an error leaves every hidden register, and an effect writes those of its own units only. -/
theorem hiddenRegistersHaveTheirUsers : Obligations.HiddenRegistersHaveTheirUsers := by
  intro i s t h
  obtain ⟨e, -, rfl⟩ | ⟨-, rfl⟩ := exec_cases h
  · simp
  · exact ⟨effect_operands i s, effect_p i s, effect_reduction i s, effect_rb i s, effect_tbl i s, effect_acc i s,
      effect_idx i s⟩

/-! ## Reading back while idle (20_memory.md R61) -/

theorem memRead_idle {s : State} (hb : s.status.busy = false) {addr : HostAddr} {v : BusWord}
    (hp : s.peek addr = some v) : memRead s addr = (v, s) := by
  simp [memRead, hb, hp]

theorem cfgWord_toNat {p : Params} (hp : p.Legal) : (cfgWord p).toNat = p.B + p.r * 2 ^ 8 + p.W * 2 ^ 16 := by
  obtain ⟨hB, hW, hr⟩ := hp
  rw [cfgWord, BitVec.toNat_ofNat]
  omega

/-- Settles O19: the three fields of the CFG word, and that no step changes what it is made of. -/
theorem configurationReadsBack : Obligations.ConfigurationReadsBack := by
  refine ⟨fun s v hl hb => ?_, fun s t h => (step_keeps h).1⟩
  have hr : memRead s 0x0003 = (cfgWord s.cfg, s) := memRead_idle hb rfl
  have hw : memWrite s 0x0003 v = s := memWrite_idle hb _ _
  obtain ⟨hB, hW, hr'⟩ := id hl
  simp only [hr, hw, field_toNat, cfgWord_toNat hl, true_and, and_true]
  omega

theorem dmax_le {p : Params} (hp : p.Legal) : p.dmax ≤ 0x4000 := by
  obtain ⟨hB, hW, hr⟩ := hp
  have hK : p.K ≤ 32 * 512 := Nat.mul_le_mul hB.2 hW.2
  have hK1 : 1 ≤ p.K := Nat.mul_pos hB.1 hW.1
  have h1 : (p.dmax - 1) * p.r ≤ p.K - 1 := (ceil_spec p.K p.r hr.1).2
  have h2 : p.dmax - 1 ≤ (p.dmax - 1) * p.r := Nat.le_mul_of_pos_right _ hr.1
  omega

theorem locate_dig {p : Params} (hp : p.Legal) {i : Nat} (hi : i < p.dmax) :
    locate p (BitVec.ofNat 16 (0x4000 + i)) = .dig i := by
  have hd := dmax_le hp
  have ha : (BitVec.ofNat 16 (0x4000 + i)).toNat = 0x4000 + i := by rw [BitVec.toNat_ofNat]; omega
  simp only [locate, ha]
  rw [if_neg (by omega), if_neg (by omega), if_neg (by omega), if_neg (by omega), if_neg (by omega), if_pos (by omega),
    Nat.add_sub_cancel_left, if_pos hi]

/-- Settles O20: each read is of a mapped location while idle. -/
theorem resultsReadBack : Obligations.ResultsReadBack := by
  intro s i hw hb hi
  have hp : s.peek (BitVec.ofNat 16 (0x4000 + i)) = some (BitVec.ofNat 32 (wordAt s.dig i)) := by
    rw [State.peek, locate_dig hw.1 hi]; rfl
  have hlt : wordAt s.dig i < 2 ^ s.cfg.r := wordAt_lt (Nat.two_pow_pos _) hw.2.2.1.2 i
  have hr : 2 ^ s.cfg.r ≤ 2 ^ 8 := Nat.pow_le_pow_right (by norm_num) hw.1.2.2.2
  refine ⟨memRead_idle hb rfl, memRead_idle hb rfl, ?_, ?_⟩
  · rw [memRead_idle hb hp]
  · rw [memRead_idle hb hp, BitVec.toNat_ofNat]
    omega

/-- Settles O7: the location is CMD, and a write there is an issue. -/
theorem writeToCmdWhileIdleIssues : Obligations.WriteToCmdWhileIdleIssues := fun _ _ hb => memWrite_idle hb _ _

/-- Settles O16: what an idle write stores at each of the four locations. -/
theorem readOnlyLocationsIgnoreWrites : Obligations.ReadOnlyLocationsIgnoreWrites := by
  intro s v hb
  refine ⟨memWrite_idle hb _ _, memWrite_idle hb _ _, fun addr i hl => ?_, memWrite_idle hb _ _⟩
  rw [memWrite_idle hb, hl]
  rfl

/-! ## The STATUS word and reset (10_state.md R26, R40) -/

theorem getLsbD_of_toNat {c : BusWord} {k : Nat} {b : Bool} (h : c.toNat / 2 ^ k % 2 = b.toNat) : c.getLsbD k = b := by
  rw [BitVec.getLsbD, Nat.testBit_eq_decide_div_mod_eq, h]
  cases b <;> rfl

/-- Settles O18: each field is the word's value shifted and cut, and the fields below it are too small to reach it. -/
theorem statusWordLayout : Obligations.StatusWordLayout := by
  intro t
  have hw := status_word_toNat t
  have hb := Bool.toNat_lt t.busy
  have hd := Bool.toNat_lt t.done
  have he := Bool.toNat_lt t.err
  have ho := Bool.toNat_lt t.ovf
  have hh := Bool.toNat_lt t.haz
  have hc := t.errcode.isLt
  refine ⟨getLsbD_of_toNat ?_, getLsbD_of_toNat ?_, getLsbD_of_toNat ?_, getLsbD_of_toNat ?_, getLsbD_of_toNat ?_,
    field_eq_zero ?_, BitVec.eq_of_toNat_eq ?_, field_eq_zero ?_⟩ <;>
  · simp only [field_toNat, hw]
    omega

theorem statusReset_word : Status.reset.word = 0 := by decide

theorem resetWith_values (p : Params) (x : Regs) (dig : List Nat) (hid : Hidden) :
    (State.resetWith p x dig hid).cmd = 0 ∧ (State.resetWith p x dig hid).status.word = 0 ∧
    (State.resetWith p x dig hid).sres = 0 ∧ (State.resetWith p x dig hid).cfg = p :=
  ⟨rfl, statusReset_word, rfl, rfl⟩

/-- Settles O22: the named reset state is one of the resets of resetWith_values. -/
theorem resetValues : Obligations.ResetValues := by
  unfold Obligations.ResetValues State.reset
  obtain ⟨hc, hw, hs, -⟩ := resetWith_values Config.rc1 (Regs.atReset Config.rc1) (digAtReset Config.rc1)
    (Hidden.atReset Config.rc1)
  exact ⟨hc, hw, hs, resetWith_values⟩

theorem resetWith_wf {p : Params} {x : Regs} {dig : List Nat} {hid : Hidden} (hp : p.Legal)
    (hx : ∀ ws ∈ x.toList, WordsOk p p.W ws) (hd : dig.length = p.dmax ∧ ∀ d ∈ dig, d < 2 ^ p.r) (hh : HiddenOk p hid) :
    (State.resetWith p x dig hid).Wf ∧ (State.resetWith p x dig hid).Latched :=
  ⟨⟨hp, hx, hd, hh, (by decide : StatusOk Status.reset)⟩, fun hb => by cases hb⟩

theorem regsAtReset_ok (p : Params) : ∀ ws ∈ (Regs.atReset p).toList, WordsOk p p.W ws := by
  intro ws hw
  obtain rfl : ws = big p.B p.W 0xA5 := by simpa [Regs.atReset, Regs.toList] using hw
  exact big_ok p _ _

theorem digAtReset_ok {p : Params} (hp : p.Legal) :
    (digAtReset p).length = p.dmax ∧ ∀ d ∈ digAtReset p, d < 2 ^ p.r := by
  refine ⟨List.length_replicate, fun d hd => ?_⟩
  rw [List.eq_of_mem_replicate hd]
  exact Nat.one_lt_two_pow (by omega)

theorem hiddenAtReset_ok (p : Params) : HiddenOk p (Hidden.atReset p) := by
  simp [HiddenOk, WordsOk, Hidden.atReset]

/-- Settles O24: the named reset state is one of the legal resets. -/
theorem resetIsWellFormed : Obligations.ResetIsWellFormed := by
  unfold Obligations.ResetIsWellFormed State.reset
  have hl : Config.rc1.Legal := by decide
  obtain ⟨hw, hc⟩ := resetWith_wf hl (regsAtReset_ok _) (digAtReset_ok hl) (hiddenAtReset_ok _)
  exact ⟨hw, hc, fun p x dig hid hp hx hd hh => resetWith_wf hp hx hd hh⟩

end Sys2Proof.Machine
end

section
/-! PROOFS of the family 20_memory.md: the register map, the operand window, violations, what a read and what a command
leave unchanged at a host address. The first part is one rule per region of the map and per kind of transaction. -/

namespace Sys2Proof.Machine

open Sys2Proof.Config (Params)

/-! ## The regions of the register map (20_memory.md R64) -/

theorem locate_reserved (p : Params) {a : Nat} (h4 : 0x0004 ≤ a) (ha : a ≤ 0x3FFF) :
    locate p (BitVec.ofNat 16 a) = .unmapped := by
  have hn : (BitVec.ofNat 16 a).toNat = a := by rw [BitVec.toNat_ofNat]; omega
  simp only [locate, hn]
  rw [if_neg (by omega), if_neg (by omega), if_neg (by omega), if_neg (by omega), if_pos (by omega)]

/-- The digit buffer's region: `DMAX` entries, and nothing above them. -/
theorem locate_digRegion (p : Params) {i : Nat} (hi : i < 0x4000) :
    locate p (BitVec.ofNat 16 (0x4000 + i)) = if i < p.dmax then .dig i else .unmapped := by
  have hn : (BitVec.ofNat 16 (0x4000 + i)).toNat = 0x4000 + i := by rw [BitVec.toNat_ofNat]; omega
  simp only [locate, hn, Nat.add_sub_cancel_left]
  rw [if_neg (by omega), if_neg (by omega), if_neg (by omega), if_neg (by omega), if_neg (by omega), if_pos (by omega)]

/-- A block of `0x1000` addresses for each register, whose first `W` are its words (R63). -/
theorem locate_window (p : Params) (i : Reg) {j : Nat} (hj : j < 0x1000) :
    locate p (BitVec.ofNat 16 (0x8000 + i.num * 0x1000 + j)) = if j < p.W then .word i j else .unmapped := by
  have hi := i.num_lt
  have hn : (BitVec.ofNat 16 (0x8000 + i.num * 0x1000 + j)).toNat = 0x8000 + i.num * 0x1000 + j := by
    rw [BitVec.toNat_ofNat]; omega
  have hreg : (0x8000 + i.num * 0x1000 + j - 0x8000) / 0x1000 = i.num := by omega
  have hword : (0x8000 + i.num * 0x1000 + j - 0x8000) % 0x1000 = j := by omega
  simp only [locate, hn, hreg, hword, Reg.ofField_num]
  rw [if_neg (by omega), if_neg (by omega), if_neg (by omega), if_neg (by omega), if_neg (by omega), if_neg (by omega)]

theorem locate_word {p : Params} (hp : p.Legal) (i : Reg) {j : Nat} (hj : j < p.W) :
    locate p (BitVec.ofNat 16 (0x8000 + i.num * 0x1000 + j)) = .word i j := by
  rw [locate_window p i (by omega), if_pos hj]

/-- Settles O13: the four words at the bottom by evaluation, then one lemma per region. -/
theorem registerMapFollowsTheTable : Obligations.RegisterMapFollowsTheTable := by
  intro p hp
  refine ⟨⟨rfl, rfl, rfl, rfl⟩, fun a => locate_reserved p, fun i => locate_dig hp, fun i hd hi => ?_,
    fun i j => locate_word hp i, fun i j hW hj => ?_⟩
  · rw [locate_digRegion p hi, if_neg (by omega)]
  · rw [locate_window p i hj, if_neg (by omega)]

/-! ## The operand window (20_memory.md R63) -/

/-- The words of a well-formed register fit a bus word, so zero-extension keeps them. -/
theorem wordAt_toNat {s : State} (h : s.Wf) (i : Reg) (j : Nat) :
    (BitVec.ofNat 32 (wordAt (s.words i) j)).toNat = wordAt (s.words i) j := by
  have hw : wordAt (s.words i) j < 2 ^ s.cfg.B := wordAt_lt (Nat.two_pow_pos _) (words_ok h i).2 j
  have hB : 2 ^ s.cfg.B ≤ 2 ^ 32 := Nat.pow_le_pow_right (by norm_num) h.1.1.2
  rw [BitVec.toNat_ofNat, Nat.mod_eq_of_lt (lt_of_lt_of_le hw hB)]

theorem value_eq_sum {s : State} (h : s.Wf) (i : Reg) :
    s.value i = ((List.range s.cfg.W).map fun j => wordAt (s.words i) j * 2 ^ (s.cfg.B * j)).sum := by
  rw [State.value, val_eq_sum, (words_ok h i).1]

/-- Settles O14: the address names word `j` of `x[i]`, which an idle write replaces and an idle read returns. -/
theorem operandWindowReadsAndWritesOneWord : Obligations.OperandWindowReadsAndWritesOneWord := by
  intro s i j v hw hb hj
  have hl := locate_word hw.1 i hj
  have hr := memRead_idle (v := BitVec.ofNat 32 (wordAt (s.words i) j)) hb (by rw [State.peek, hl]; rfl)
  refine ⟨?_, by rw [hr], by rw [hr, wordAt_toNat hw], value_eq_sum hw i⟩
  rw [memWrite_idle hb, hl]
  rfl

/-! ## Violations and reads (20_memory.md R61, R66) -/

theorem memWrite_violation {s : State} {addr : HostAddr} {v : BusWord} (h : violates s (.wr addr v) = true) :
    memWrite s addr v = s.setHaz true := by
  obtain ⟨-, e⟩ | ⟨hv, -⟩ := memWrite_cases s addr v
  · exact e
  · simp [h] at hv

theorem memRead_violation {s : State} {addr : HostAddr} (h : violates s (.rd addr) = true) :
    memRead s addr = (0, s.setHaz true) := by
  obtain ⟨-, e⟩ | ⟨hv, -⟩ := memRead_cases s addr
  · exact e
  · simp [h] at hv

theorem memRead_status (s : State) : memRead s statusAddr = (s.status.word, s) := by
  simp [memRead, locate_status, State.peek, State.content]

/-- Settles O15: the two conditions are those of `violates`. -/
theorem violationsSetHazAndNothingElse : Obligations.ViolationsSetHazAndNothingElse := by
  refine fun s addr v => ⟨fun h => memWrite_violation ?_, fun h => memRead_violation ?_, memRead_status s⟩
  · simpa [violates] using h
  · simpa [violates, statusAddr] using h

theorem violates_setHaz (s : State) (b : Bool) (act : HostAction) : violates (s.setHaz b) act = violates s act := by
  cases act <;> rfl

/-- Settles O17: a violating read violates again after HAZ is set, and any other read leaves the state as it is. -/
theorem readsChangeAtMostHaz : Obligations.ReadsChangeAtMostHaz := by
  intro s addr
  have hs : (memRead s 0x0001).2 = s := congrArg Prod.snd (memRead_status s)
  obtain ⟨hv, e⟩ | ⟨-, v, -, e⟩ := memRead_cases s addr
  · have e' := memRead_violation ((violates_setHaz s true (.rd addr)).trans hv)
    exact ⟨.inr (by rw [e]; rfl), by rw [e, e'], hs⟩
  · exact ⟨.inl (by rw [e]), by rw [e, e], hs⟩

/-! ## What a command leaves at a host address (20_memory.md R60, R64) -/

/-- The parameters stay, so an address names after a command what it named before. -/
theorem exec_peek {i : Instr} {s t : State} (h : exec i s = .next t) (addr : HostAddr) :
    t.peek addr = t.content (locate s.cfg addr) := by
  rw [State.peek, (exec_completes h).cfg]

/-- Settles O36: the content of each kind of location is a field with a frame of its own. -/
theorem registerMapFrame : Obligations.RegisterMapFrame := by
  intro i s t addr h
  have hc := exec_completes h
  obtain ⟨hsres, hdig⟩ := sresAndDigHaveTheirWriters i s t h
  rw [exec_peek h, State.peek]
  cases locate s.cfg addr with
  | cmd => exact congrArg some hc.cmd
  | status => trivial
  | sres => exact fun hw => congrArg some (hsres (.inl hw))
  | cfg => exact congrArg (fun p => some (cfgWord p)) hc.cfg
  | dig j => exact fun hw => congrArg (fun d => some (BitVec.ofNat 32 (wordAt d j))) (hdig (.inl hw))
  | word r j =>
    intro hr
    simp only [State.content, onlyTheDestinationRegisterChanges i s t h r hr]
  | unmapped => rfl

end Sys2Proof.Machine
end

section
/-! PROOFS of the family 30_encoding.md: the two round trips, the opcode table, the worked words, `wait`. -/

namespace Sys2Proof

/-! ## From a command to its word and back (30_encoding.md R91 to R96) -/

/-- Settles O1: one round trip per constructor, those of Laws/PerInstr.lean. -/
theorem decodeOfEncodeIsTheCommand : Obligations.DecodeOfEncodeIsTheCommand := by
  intro i
  cases i with
  | clr d => exact Laws.Roundtrip.clr d
  | ldi d imm => exact Laws.Roundtrip.ldi d imm
  | mov d a => exact Laws.Roundtrip.mov d a
  | cmp a b => exact Laws.Roundtrip.cmp a b
  | getbit a imm => exact Laws.Roundtrip.getbit a imm
  | nbits a => exact Laws.Roundtrip.nbits a
  | shl1 d a => exact Laws.Roundtrip.shl1 d a
  | shr1 d a => exact Laws.Roundtrip.shr1 d a
  | bshl d a imm => exact Laws.Roundtrip.bshl d a imm
  | add d a b => exact Laws.Roundtrip.add d a b
  | sub d a b => exact Laws.Roundtrip.sub d a b
  | mul d a b => exact Laws.Roundtrip.mul d a b
  | mod d a n => exact Laws.Roundtrip.mod d a n
  | mulmod d a b n => exact Laws.Roundtrip.mulmod d a b n
  | expb d m e n => exact Laws.Roundtrip.expb d m e n
  | expbk d m e n => exact Laws.Roundtrip.expbk d m e n
  | expw d m e n => exact Laws.Roundtrip.expw d m e n
  | expwk d m e n => exact Laws.Roundtrip.expwk d m e n
  | decomp e => exact Laws.Roundtrip.decomp e
  | blak d a b n => exact Laws.Roundtrip.blak d a b n

/-! ## From a word to its command and back (30_encoding.md R91, R92, R96) -/

/-- A word whose format R tail is 0 is rebuilt from its fields. -/
theorem formatR_fields {c : BusWord} (ht : tailField c = 0) :
    formatR (opField c).toNat (rdField c).toNat (rs1Field c).toNat (rs2Field c).toNat (rs3Field c).toNat = c := by
  have hR := formatR_toNat (opField c).isLt (rdField c).isLt (rs1Field c).isLt (rs2Field c).isLt (rs3Field c).isLt
  have hc := word_fieldsR c
  rw [ht, BitVec.ofNat_eq_ofNat, BitVec.toNat_ofNat, Nat.zero_mod, Nat.add_zero] at hc
  exact BitVec.eq_of_toNat_eq (hR.trans hc.symm)

/-- A word whose format I gap is 0 is rebuilt from its fields. -/
theorem formatI_fields {c : BusWord} (hg : gapField c = 0) :
    formatI (opField c).toNat (rdField c).toNat (rs1Field c).toNat (immField c) = c := by
  have hI := formatI_toNat (opField c).isLt (rdField c).isLt (rs1Field c).isLt (immField_le c)
  have hc := word_fieldsI c
  rw [hg, BitVec.ofNat_eq_ofNat, BitVec.toNat_ofNat, Nat.zero_mod, Nat.zero_mul, Nat.add_zero] at hc
  exact BitVec.eq_of_toNat_eq (hI.trans hc.symm)

/-- Settles O2: in each arm of the decoder the unused fields are 0, so the word is rebuilt from the fields the command
keeps. The arms of LDI, GETBIT and BSHL have format I. -/
theorem encodeOfDecodeIsTheWord : Obligations.EncodeOfDecodeIsTheWord := by
  intro c i h
  unfold decode at h
  split at h
  case h_21 => cases h
  case h_2 hop | h_5 hop | h_9 hop =>
    obtain ⟨hz, rfl⟩ := whenUnusedZero_ok.1 h
    simp only [Bool.and_eq_true, beq_iff_eq] at hz
    have hw := formatI_fields (c := c) (by simp only [hz])
    exact ⟨by simpa [encode, num_ofField, hop, hz] using hw, decide_eq_true (immField_le c)⟩
  all_goals
    next hop =>
    obtain ⟨hz, rfl⟩ := whenUnusedZero_ok.1 h
    simp only [Bool.and_eq_true, beq_iff_eq] at hz
    have hw := formatR_fields (c := c) (by simp only [hz])
    exact ⟨by simpa [encode, num_ofField, hop, hz] using hw, rfl⟩

/-! ## The rows of the opcode table (30_encoding.md R94) -/

/-- The row of a command. -/
def Instr.row : Instr → OpcodeRow
  | .clr _ => ⟨"CLR", 0x01000000, 0xFF1FFFFF⟩
  | .ldi _ _ => ⟨"LDI", 0x02000000, 0xFF1F0000⟩
  | .mov _ _ => ⟨"MOV", 0x03000000, 0xFF03FFFF⟩
  | .cmp _ _ => ⟨"CMP", 0x10000000, 0xFFE07FFF⟩
  | .getbit _ _ => ⟨"GETBIT", 0x11000000, 0xFFE30000⟩
  | .nbits _ => ⟨"NBITS", 0x12000000, 0xFFE3FFFF⟩
  | .shl1 _ _ => ⟨"SHL1", 0x20000000, 0xFF03FFFF⟩
  | .shr1 _ _ => ⟨"SHR1", 0x21000000, 0xFF03FFFF⟩
  | .bshl _ _ _ => ⟨"BSHL", 0x22000000, 0xFF030000⟩
  | .add _ _ _ => ⟨"ADD", 0x30000000, 0xFF007FFF⟩
  | .sub _ _ _ => ⟨"SUB", 0x31000000, 0xFF007FFF⟩
  | .mul _ _ _ => ⟨"MUL", 0x40000000, 0xFF007FFF⟩
  | .mod _ _ _ => ⟨"MOD", 0x50000000, 0xFF007FFF⟩
  | .mulmod _ _ _ _ => ⟨"MULMOD", 0x51000000, 0xFF000FFF⟩
  | .expb _ _ _ _ => ⟨"EXPB", 0x60000000, 0xFF000FFF⟩
  | .expbk _ _ _ _ => ⟨"EXPBK", 0x61000000, 0xFF000FFF⟩
  | .expw _ _ _ _ => ⟨"EXPW", 0x70000000, 0xFF000FFF⟩
  | .expwk _ _ _ _ => ⟨"EXPWK", 0x71000000, 0xFF000FFF⟩
  | .decomp _ => ⟨"DECOMP", 0x72000000, 0xFFE3FFFF⟩
  | .blak _ _ _ _ => ⟨"BLAK", 0x80000000, 0xFF000FFF⟩

theorem row_mnemonic (i : Instr) : i.row.mnemonic = i.mnemonic := by cases i <;> rfl

theorem row_mem (i : Instr) : i.row ∈ opcodeTable := by
  cases i <;> simp [opcodeTable, opcodeRowsLow, opcodeRowsHigh, Instr.row]

theorem masks_cover_opcode : ∀ row ∈ opcodeTable, opField row.mask = BitVec.allOnes 8 := by decide

theorem rows_have_distinct_opcodes :
    ∀ r₁ ∈ opcodeTable, ∀ r₂ ∈ opcodeTable, opField r₁.pattern = opField r₂.pattern → r₁ = r₂ := by decide

theorem opcode_of_matches {row : OpcodeRow} {c : BusWord} (hr : row ∈ opcodeTable) (h : row.Matches c) :
    opField c = opField row.pattern := by
  have hf : opField c &&& opField row.mask = opField row.pattern :=
    (field_and c row.mask 24 8).symm.trans (congrArg opField h)
  rwa [masks_cover_opcode row hr, BitVec.and_allOnes] at hf

/-- A row's match, field by field in format R. -/
theorem matches_iffR (row : OpcodeRow) (c : BusWord) : row.Matches c ↔
    opField c &&& opField row.mask = opField row.pattern ∧ rdField c &&& rdField row.mask = rdField row.pattern ∧
    rs1Field c &&& rs1Field row.mask = rs1Field row.pattern ∧
    rs2Field c &&& rs2Field row.mask = rs2Field row.pattern ∧
    rs3Field c &&& rs3Field row.mask = rs3Field row.pattern ∧
    tailField c &&& tailField row.mask = tailField row.pattern := by
  simp only [opField, rdField, rs1Field, rs2Field, rs3Field, tailField, ← field_and]
  exact ⟨fun h => by simp only [← h, and_self], word_extR⟩

/-- A row's match, field by field in format I. -/
theorem matches_iffI (row : OpcodeRow) (c : BusWord) : row.Matches c ↔
    opField c &&& opField row.mask = opField row.pattern ∧ rdField c &&& rdField row.mask = rdField row.pattern ∧
    rs1Field c &&& rs1Field row.mask = rs1Field row.pattern ∧
    gapField c &&& gapField row.mask = gapField row.pattern ∧
    c.extractLsb' 0 16 &&& row.mask.extractLsb' 0 16 = row.pattern.extractLsb' 0 16 := by
  simp only [opField, rdField, rs1Field, gapField, ← field_and]
  exact ⟨fun h => by simp only [← h, and_self],
    fun ⟨hop, hd, ha, hg, hi⟩ => word_extI ⟨hop, hd, ha, hg, congrArg BitVec.toNat hi⟩⟩

/-! A mask's field, where it covers the field, is all ones, written as `simp` evaluates it. -/

theorem and_coveredReg (f : BitVec 3) : f &&& 7#3 = f := BitVec.and_allOnes

theorem and_coveredGap (f : BitVec 2) : f &&& 3#2 = f := BitVec.and_allOnes

theorem and_coveredTail (f : BitVec 12) : f &&& 4095#12 = f := BitVec.and_allOnes

theorem opField_eq_ofNat {c : BusWord} {op : Nat} (h : (opField c).toNat = op) : opField c = BitVec.ofNat 8 op := by
  rw [← h, BitVec.ofNat_toNat, BitVec.setWidth_eq]

/-- What the decoder is in terms of the rows: for an opcode of the table, the command of that row if the row matches and
illegal if not; for any other opcode, illegal. -/
theorem decode_cases (c : BusWord) :
    (∃ i : Instr, opField c = opField i.row.pattern ∧ decode c = whenUnusedZero (decide (i.row.Matches c)) i) ∨
    ((∀ row ∈ opcodeTable, opField c ≠ opField row.pattern) ∧ decode c = .error .unassignedOpcode) := by
  unfold decode
  split
  case h_21 =>
    refine .inr ⟨?_, rfl⟩
    simp only [opcodeTable, opcodeRowsLow, opcodeRowsHigh]
    simp_all [opField, ← BitVec.toNat_inj]
  case h_2 hop | h_5 hop | h_9 hop =>
    have hop := opField_eq_ofNat hop
    refine .inl ⟨_, ?_, congrArg₂ whenUnusedZero ?_ rfl⟩
    · rw [hop, Instr.row]; simp [opField]
    · rw [Bool.eq_iff_iff, decide_eq_true_iff, Instr.row, matches_iffI, hop]
      simp [opField, rdField, rs1Field, gapField, and_coveredReg, and_coveredGap]
  all_goals
    next hop =>
    have hop := opField_eq_ofNat hop
    refine .inl ⟨_, ?_, congrArg₂ whenUnusedZero ?_ rfl⟩
    · rw [hop, Instr.row]; simp [opField]
    · rw [Bool.eq_iff_iff, decide_eq_true_iff, Instr.row, matches_iffR, hop]
      simp [opField, rdField, rs1Field, rs2Field, rs3Field, tailField, and_coveredReg, and_coveredTail, and_assoc]

/-- Settles O3: the decoder's cases are the rows, and the opcode tells the rows apart. -/
theorem decodeFollowsMatchAndMask : Obligations.DecodeFollowsMatchAndMask := by
  refine ⟨rfl, fun c => ⟨fun i h => ?_, fun row hr hm => ?_, fun r₁ h₁ r₂ h₂ m₁ m₂ => ?_⟩⟩
  · obtain ⟨j, -, hj⟩ | ⟨-, hj⟩ := decode_cases c
    · obtain ⟨hm, rfl⟩ := whenUnusedZero_ok.1 (hj.symm.trans h)
      exact ⟨j.row, row_mem j, row_mnemonic j, of_decide_eq_true hm⟩
    · cases hj.symm.trans h
  · have hop := opcode_of_matches hr hm
    obtain ⟨i, hi, hd⟩ | ⟨hne, -⟩ := decode_cases c
    · obtain rfl := rows_have_distinct_opcodes i.row (row_mem i) row hr (hi.symm.trans hop)
      exact ⟨i, hd.trans (whenUnusedZero_ok.2 ⟨decide_eq_true hm, rfl⟩), (row_mnemonic i).symm⟩
    · exact absurd hop (hne row hr)
  · exact rows_have_distinct_opcodes r₁ h₁ r₂ h₂ ((opcode_of_matches h₁ m₁).symm.trans (opcode_of_matches h₂ m₂))

/-! ## The worked encodings (30_encoding.md R102) -/

/-- Settles O4: by evaluation; both illegal words have a bit set in a field their command does not use. -/
theorem workedEncodingsDecode : Obligations.WorkedEncodingsDecode :=
  ⟨rfl, rfl, rfl, rfl, rfl, rfl, rfl, rfl, rfl, rfl, ⟨.unusedFieldNotZero, rfl⟩, ⟨.unusedFieldNotZero, rfl⟩⟩

end Sys2Proof

namespace Sys2Proof.Machine

/-! ## `wait` (30_encoding.md R101) -/

/-- Settles O9: the host's turn performs `wait` on the state with the turn and the action taken. -/
theorem waitRepeatsUntilBusyReadsZero : Obligations.WaitRepeatsUntilBusyReadsZero := by
  intro s rest hl ha hs
  rw [step_action_turn hl ha hs, hostAct_wait]
  rfl

end Sys2Proof.Machine
end

section
/-! PROOFS of the family 40_construct_compare_bits.md: CMP, GETBIT, NBITS by value, and CLR, LDI, MOV. What a
statement stands on comes before it: the comparator's word in SRES, the bits of a value read off its words, the bit count. -/

namespace Sys2Proof.Machine

/-! ## The scalar commands (40_construct_compare_bits.md R123 to R125) -/

theorem exec_cmp (s : State) (xa xb : Reg) :
    exec (.cmp xa xb) s = .next { s with
      sres := signWord (cmpWords (s.words xa) (s.words xb)), status := s.status.completed } := rfl

theorem exec_getbit (s : State) (xa : Reg) (imm : Nat) :
    exec (.getbit xa imm) s = .next { s with
      sres := countWord (bitOfWords s.cfg (s.words xa) imm), status := s.status.completed } := rfl

theorem exec_nbits (s : State) (xa : Reg) :
    exec (.nbits xa) s = .next { s with
      sres := countWord (nbits (s.value xa)), status := s.status.completed } := rfl

/-! ## Comparison (R123, R126) -/

/-- The three words CMP can leave in SRES. -/
theorem signWord_cmpWords {s : State} (h : s.Wf) (a b : Reg) :
    signWord (cmpWords (s.words a) (s.words b)) =
      if s.value a < s.value b then 0xFFFFFFFF else if s.value a = s.value b then 0x00000000 else 0x00000001 := by
  rw [cmpWords_value h, apply_ite signWord, apply_ite signWord]
  rfl

/-- Settles O41: the comparator's sign is that of the values. -/
theorem compareResult : Obligations.CompareResult := by
  intro s xa xb h
  rw [exec_cmp, signWord_cmpWords h]

/-- Settles O54: of the two comparisons one gives the word -1 and the other 1, or both give 0. -/
theorem compareIsAntisymmetric : Obligations.CompareIsAntisymmetric := by
  intro s xa xb h
  refine ⟨_, _, _, compareResult s xa xb h, compareResult s xb xa h, compareResult s xa xa h, ?_, by simp⟩
  rcases Nat.lt_trichotomy (s.value xa) (s.value xb) with hlt | heq | hgt
  · simp [hlt, hlt.not_gt, hlt.ne']
  · simp [heq]
  · simp [hgt, hgt.not_gt, hgt.ne']

/-! ## Bits of a value (R124, R125) -/

theorem bit_eq_toNat_testBit (v i : Nat) : bit v i = (v.testBit i).toNat := (Nat.toNat_testBit v i).symm

/-- Bit `i mod B` of word `i div B` is bit `i` of the value. -/
theorem bit_wordAt {B : Nat} {ws : Words} (h : Bounded B ws) {i : Nat} (hi : i < B * ws.length) :
    bit (wordAt ws (i / B)) (i % B) = bit (val B ws) i := by
  have hlow : i % B < B := Nat.mod_lt i (Nat.pos_of_mul_pos_right (Nat.zero_lt_of_lt hi))
  have hw : wordAt ws (i / B) = val B ws / 2 ^ (B * (i / B)) % 2 ^ B := by
    conv_lhs => rw [← big_val h]
    exact wordAt_big _ _ _ _ (Nat.div_lt_of_lt_mul hi)
  rw [hw, bit_eq_toNat_testBit, bit_eq_toNat_testBit, Nat.testBit_mod_two_pow, Nat.testBit_div_two_pow,
    Nat.mod_add_div, decide_eq_true hlow, Bool.true_and]

/-- Settles O42: below `K` the word read holds the value's bit. -/
theorem getbitResult : Obligations.GetbitResult := by
  intro s xa imm h
  obtain ⟨hlen, hb⟩ := words_ok h xa
  rw [exec_getbit, bitOfWords, apply_ite countWord]
  by_cases hi : imm < s.cfg.K
  · rw [if_pos hi, if_pos hi, bit_wordAt hb (by rwa [hlen])]
    rfl
  · rw [if_neg hi, if_neg hi]
    rfl

/-- From the bit count up every bit is 0. -/
theorem bit_of_nbits_le {v i : Nat} (h : nbits v ≤ i) : bit v i = 0 := by
  have hlt : v < 2 ^ i := (lt_two_pow_nbits v).trans_le (Nat.pow_le_pow_right (by norm_num) h)
  rw [bit, Nat.div_eq_of_lt hlt]

theorem bit_nbits_sub_one {v : Nat} (h : v ≠ 0) : bit v (nbits v - 1) = 1 := by rw [bit, div_top_bit h]

/-- Settles O43: the model's bit count, whose top bit is set and above which no bit is. -/
theorem nbitsResult : Obligations.NbitsResult := by
  intro s xa h
  refine ⟨nbits (s.value xa), exec_nbits s xa, nbits_le (value_lt h xa), fun h0 => if_pos h0, fun h0 => ⟨?_, ?_, ?_⟩⟩
  · rw [nbits_pos h0]
    exact Nat.le_add_left 1 _
  · exact bit_nbits_sub_one h0
  · exact fun i hi => bit_of_nbits_le hi

/-! ## Construction (R120 to R122) -/

/-- Settles O40: the words of the value 0 are all 0; the two others write what their rules name. -/
theorem constructionResults : Obligations.ConstructionResults := by
  refine fun s xd xa imm => ⟨?_, rfl, rfl⟩
  rw [← big_zero s.cfg.B]
  rfl

end Sys2Proof.Machine
end

section
/-! PROOFS of the family 41_shifts.md: SHL1, SHR1, BSHL by value, and the round trip of the one-bit shifts. What a
statement stands on comes before it: the words each shift loop leaves, written by the value of its operand. -/

namespace Sys2Proof.Machine

theorem exec_shl1 (s : State) (xd xa : Reg) :
    exec (.shl1 xd xa) s = .next { s with
      x := s.x.set xd (shl1Words s.cfg.B (s.words xa) 0), status := s.status.completed } := rfl

theorem exec_shr1 (s : State) (xd xa : Reg) :
    exec (.shr1 xd xa) s = .next { s with
      x := s.x.set xd (shr1Words s.cfg.B (s.words xa)), status := s.status.completed } := rfl

theorem exec_bshl (s : State) (xd xa : Reg) (imm : Nat) :
    exec (.bshl xd xa imm) s = .next { s with
      x := s.x.set xd (bshlWords s.cfg.W (s.words xa) imm), status := s.status.completed } := rfl

/-! ## The shifted words by value (41_shifts.md R140 to R142) -/

theorem one_le_wordWidth {s : State} (h : s.Wf) : 1 ≤ s.cfg.B := by
  obtain ⟨⟨⟨hB, -⟩, -⟩, -⟩ := h
  exact hB

theorem shl1Words_value {s : State} (h : s.Wf) (i : Reg) :
    shl1Words s.cfg.B (s.words i) 0 = big s.cfg.B s.cfg.W (2 * s.value i % 2 ^ s.cfg.K) := by
  obtain ⟨hlen, hb⟩ := words_ok h i
  rw [shl1Words_eq (one_le_wordWidth h) 0 (Nat.zero_le 1) hb, hlen]
  exact (big_mod _ _ _).symm

theorem shr1Words_value {s : State} (h : s.Wf) (i : Reg) :
    shr1Words s.cfg.B (s.words i) = big s.cfg.B s.cfg.W (s.value i / 2) := by
  obtain ⟨hlen, hb⟩ := words_ok h i
  rw [shr1Words_eq (one_le_wordWidth h) hb, hlen]
  rfl

theorem bshlWords_value {s : State} (h : s.Wf) (i : Reg) (m : Nat) :
    bshlWords s.cfg.W (s.words i) m = big s.cfg.B s.cfg.W (s.value i * 2 ^ (s.cfg.B * m) % 2 ^ s.cfg.K) := by
  obtain ⟨hlen, hb⟩ := words_ok h i
  have e := bshlWords_eq m hb
  rw [hlen] at e
  exact e.trans (big_mod _ _ _).symm

/-- Settles O44: each shift loop leaves the words of the shifted value. -/
theorem shiftResults : Obligations.ShiftResults := by
  intro s xd xa imm h
  rw [exec_shl1, exec_shr1, exec_bshl, shl1Words_value h, shr1Words_value h, bshlWords_value h]
  exact ⟨rfl, rfl, rfl⟩

/-! ## The round trip (R140, R141) -/

/-- A register that holds the words of `v` has the value `v mod 2^K` (00_scope.md R11). -/
theorem value_of_words_eq_big {s : State} {i : Reg} {v : Nat} (e : s.words i = big s.cfg.B s.cfg.W v) :
    s.value i = v % 2 ^ s.cfg.K := by
  rw [State.value, e]
  exact val_big _ _ _

/-- The doubled value is in the destination when the operand's top bit is 0. -/
theorem value_of_exec_shl1 {s t : State} {xd xa : Reg} (h : s.Wf) (htop : 2 * s.value xa < 2 ^ s.cfg.K)
    (he : exec (.shl1 xd xa) s = .next t) : t.value xd = 2 * s.value xa := by
  obtain ⟨hshl, -, -⟩ := shiftResults s xd xa 0 h
  have hwords : t.words xd = big t.cfg.B t.cfg.W (2 * s.value xa % 2 ^ s.cfg.K) := by
    obtain rfl := Host.Outcome.next.inj (hshl.symm.trans he)
    exact get_set_same _ _ _
  rw [value_of_words_eq_big hwords, (exec_completes he).cfg, Nat.mod_mod, Nat.mod_eq_of_lt htop]

/-- The destination holds the words of half the operand's value. -/
theorem words_of_exec_shr1 {s t : State} {xd xa : Reg} (h : s.Wf) (he : exec (.shr1 xd xa) s = .next t) :
    t.words xd = big s.cfg.B s.cfg.W (s.value xa / 2) := by
  obtain ⟨-, hshr, -⟩ := shiftResults s xd xa 0 h
  obtain rfl := Host.Outcome.next.inj (hshr.symm.trans he)
  exact get_set_same _ _ _

/-- Settles O56: below `2^K` the doubled value is kept whole, and halving it gives the operand back. -/
theorem shiftRoundTrip : Obligations.ShiftRoundTrip := by
  intro s xd xa h htop
  obtain ⟨t, ht⟩ := exec_next (.shl1 xd xa) s
  obtain ⟨u, hu⟩ := exec_next (.shr1 xd xd) t
  refine ⟨t, u, ht, hu, ?_⟩
  calc u.words xd
      = big t.cfg.B t.cfg.W (t.value xd / 2) := words_of_exec_shr1 (exec_wf h ht) hu
    _ = big s.cfg.B s.cfg.W (2 * s.value xa / 2) := by
        rw [(exec_completes ht).cfg, value_of_exec_shl1 h htop ht]
    _ = big s.cfg.B s.cfg.W (s.value xa) := by rw [Nat.mul_div_cancel_left _ Nat.two_pos]
    _ = s.words xa := big_value h xa

end Sys2Proof.Machine
end

section
/-! PROOFS of the family 42_add_sub.md: ADD and SUB by value, and the additive inverse of the two. What a statement
stands on comes before it: the words and the carry of the adder, the words of the subtractor, as values. -/

namespace Sys2Proof.Machine

/-! ## The adder and the subtractor by value (42_add_sub.md R151, R153) -/

/-- The words of the adder are those of the sum, wrapped at `2^K`. -/
theorem addWords_value_fst {s : State} (h : s.Wf) (a b : Reg) :
    (addWords s.cfg.B (s.words a) (s.words b) 0).1 =
      big s.cfg.B s.cfg.W ((s.value a + s.value b) % 2 ^ s.cfg.K) := by
  have hlen := (words_ok h a).1
  rw [addWords_fst _ _ _ _ (hlen.trans (words_ok h b).1.symm), hlen]
  exact (big_mod _ _ _).symm

/-- The carry out of the top word is what the sum holds from bit `K` up. -/
theorem addWords_value_snd {s : State} (h : s.Wf) (a b : Reg) :
    (addWords s.cfg.B (s.words a) (s.words b) 0).2 = (s.value a + s.value b) / 2 ^ s.cfg.K := by
  have hlen := (words_ok h a).1
  rw [addWords_snd _ _ _ _ (hlen.trans (words_ok h b).1.symm), hlen]
  rfl

/-- A carry out of bit `k` is a value of at least `2^k`. -/
theorem carryFlag_div (v k : Nat) : carryFlag (v / 2 ^ k) = decide (2 ^ k ≤ v) := by
  rw [Bool.eq_iff_iff, decide_eq_true_iff, carryFlag, bne_iff_ne, Nat.div_ne_zero_iff]
  exact and_iff_right (Nat.two_pow_pos k).ne'

/-- When the minuend is not below the subtrahend, the words of the subtractor are those of the difference: a borrow out
of the top word would make the difference at least `2^(B*N)`. -/
theorem subWords_fst_of_le {B : Nat} {a b : Words} (h : a.length = b.length) (ha : Bounded B a) (hb : Bounded B b)
    (hle : val B b ≤ val B a) : (subWords B a b 0).1 = big B a.length (val B a - val B b) := by
  obtain ⟨hlen, hd, hborrow, hval⟩ := subWords_spec 0 (Nat.zero_le 1) h ha hb
  have hlt := val_lt hd
  rw [hlen] at hlt
  have hdiff : val B (subWords B a b 0).1 = val B a - val B b := by
    obtain h0 | h1 := Nat.le_one_iff_eq_zero_or_eq_one.1 hborrow
    · rw [h0] at hval
      omega
    · rw [h1] at hval
      omega
  rw [← hdiff, ← hlen]
  exact (big_val hd).symm

theorem subWords_value {s : State} (h : s.Wf) {a b : Reg} (hle : s.value b ≤ s.value a) :
    (subWords s.cfg.B (s.words a) (s.words b) 0).1 = big s.cfg.B s.cfg.W (s.value a - s.value b) := by
  obtain ⟨hla, ha⟩ := words_ok h a
  obtain ⟨hlb, hb⟩ := words_ok h b
  rw [subWords_fst_of_le (hla.trans hlb.symm) ha hb hle, hla]
  rfl

/-! ## ADD (R150) -/

theorem exec_add (s : State) (xd xa xb : Reg) :
    exec (.add xd xa xb) s = .next { s with
      x := s.x.set xd (addWords s.cfg.B (s.words xa) (s.words xb) 0).1
      status := { s.status.completed with ovf := carryFlag (addWords s.cfg.B (s.words xa) (s.words xb) 0).2 } } := rfl

/-- Settles O45: the adder's words are the wrapped sum, its carry what the sum has beyond `K` bits. -/
theorem addResult : Obligations.AddResult := by
  intro s xd xa xb h
  rw [exec_add, addWords_value_fst h, addWords_value_snd h, carryFlag_div]

/-! ## SUB (R152) -/

theorem exec_sub_of_le {s : State} (h : s.Wf) (xd : Reg) {xa xb : Reg} (hle : s.value xb ≤ s.value xa) :
    exec (.sub xd xa xb) s = .next { s with
      x := s.x.set xd (subWords s.cfg.B (s.words xa) (s.words xb) 0).1, status := s.status.completed } := by
  rw [exec_eq, checkFails_eq h, errorOf, if_neg hle.not_gt]
  rfl

theorem exec_sub_of_lt {s : State} (h : s.Wf) (xd : Reg) {xa xb : Reg} (hlt : s.value xa < s.value xb) :
    exec (.sub xd xa xb) s = .next { s with status := s.status.failed .underflow } := by
  rw [exec_eq, checkFails_eq h, errorOf, if_pos hlt]
  rfl

/-- Settles O46: the entry check is the comparison of the values, and past it the subtractor borrows nothing. -/
theorem subResult : Obligations.SubResult := by
  intro s xd xa xb h
  constructor
  · intro hle
    rw [exec_sub_of_le h xd hle, subWords_value h hle]
  · intro hlt
    rw [exec_sub_of_lt h xd hlt]
    rfl

/-! ## The additive inverse (R150, R152) -/

/-- The exact difference is in the destination when the minuend is not below the subtrahend. -/
theorem value_of_exec_sub {s t : State} {xd xa xb : Reg} (h : s.Wf) (hle : s.value xb ≤ s.value xa)
    (he : exec (.sub xd xa xb) s = .next t) : t.value xd = s.value xa - s.value xb := by
  obtain ⟨hsub, -⟩ := subResult s xd xa xb h
  have hwords : t.words xd = big t.cfg.B t.cfg.W (s.value xa - s.value xb) := by
    obtain rfl := Host.Outcome.next.inj ((hsub hle).symm.trans he)
    exact get_set_same _ _ _
  rw [value_of_words_eq_big hwords, (exec_completes he).cfg,
    Nat.mod_eq_of_lt ((Nat.sub_le _ _).trans_lt (value_lt h xa))]

/-- A command leaves the value of every register but its destination. -/
theorem value_of_exec_other {i : Instr} {s t : State} {r : Reg} (he : exec i s = .next t) (hr : dest i ≠ some r) :
    t.value r = s.value r := by
  rw [State.value, (exec_completes he).cfg, onlyTheDestinationRegisterChanges i s t he r hr]
  rfl

/-- Below `2^K` the sum is written whole and OVF is 0. -/
theorem words_of_exec_add {s t : State} {xd xa xb : Reg} (h : s.Wf) (hlt : s.value xa + s.value xb < 2 ^ s.cfg.K)
    (he : exec (.add xd xa xb) s = .next t) :
    t.words xd = big s.cfg.B s.cfg.W (s.value xa + s.value xb) ∧ t.status.ovf = false := by
  obtain rfl := Host.Outcome.next.inj ((addResult s xd xa xb h).symm.trans he)
  constructor
  · exact (get_set_same _ _ _).trans (big_mod _ _ _)
  · exact decide_eq_false hlt.not_ge

/-- Settles O55: SUB leaves the difference in `xd` and the subtrahend in `xb`, and their sum, the minuend, fits in `K`
bits. -/
theorem subThenAddRestores : Obligations.SubThenAddRestores := by
  intro s xd xa xb h hle hne
  obtain ⟨t, ht⟩ := exec_next (.sub xd xa xb) s
  obtain ⟨u, hu⟩ := exec_next (.add xd xd xb) t
  have hcfg := (exec_completes ht).cfg
  have hsum : t.value xd + t.value xb = s.value xa := by
    rw [value_of_exec_sub h hle ht, value_of_exec_other ht (by simpa [dest] using hne), Nat.sub_add_cancel hle]
  have hlt : t.value xd + t.value xb < 2 ^ t.cfg.K := by
    rw [hsum, hcfg]
    exact value_lt h xa
  obtain ⟨hwords, hovf⟩ := words_of_exec_add (exec_wf h ht) hlt hu
  refine ⟨t, u, ht, hu, ?_, hovf⟩
  calc u.words xd
      = big t.cfg.B t.cfg.W (t.value xd + t.value xb) := hwords
    _ = big s.cfg.B s.cfg.W (s.value xa) := by rw [hsum, hcfg]
    _ = s.words xa := big_value h xa

end Sys2Proof.Machine
end

section
/-! PROOFS of the family 43_multiply.md: MUL by value. What the statement stands on comes before it: the `2*W` scratch
words of the multiplier, their lower half and the test of their upper half, by the values of the operands. -/

namespace Sys2Proof.Machine

/-! ## The multiplier by value (43_multiply.md R160, R165) -/

/-- Of two registers of a well-formed state the multiplier forms the exact product in `2*W` words. -/
theorem mulWords_exact {s : State} (h : s.Wf) (a b : Reg) :
    WordsOk s.cfg (2 * s.cfg.W) (mulWords s.cfg.B s.cfg.W (s.words a) (s.words b)) ∧
      val s.cfg.B (mulWords s.cfg.B s.cfg.W (s.words a) (s.words b)) = s.value a * s.value b := by
  obtain ⟨hla, ha⟩ := words_ok h a
  obtain ⟨hlb, hb⟩ := words_ok h b
  obtain ⟨hlen, hP, hval⟩ := mulWords_spec hla hlb ha hb
  exact ⟨⟨hlen, hP⟩, hval⟩

theorem mulWords_value {s : State} (h : s.Wf) (a b : Reg) :
    mulWords s.cfg.B s.cfg.W (s.words a) (s.words b) = big s.cfg.B (2 * s.cfg.W) (s.value a * s.value b) := by
  obtain ⟨⟨hlen, hP⟩, hval⟩ := mulWords_exact h a b
  have hbig := big_val hP
  rw [hlen, hval] at hbig
  exact hbig.symm

/-- The lower half of the scratch words is the product wrapped at `2^K`. -/
theorem mulWords_take_value {s : State} (h : s.Wf) (a b : Reg) :
    (mulWords s.cfg.B s.cfg.W (s.words a) (s.words b)).take s.cfg.W =
      big s.cfg.B s.cfg.W (s.value a * s.value b % 2 ^ s.cfg.K) := by
  rw [mulWords_value h, big_take _ _ _ _ (Nat.le_mul_of_pos_left _ Nat.two_pos)]
  exact (big_mod _ _ _).symm

/-- The upper half is not all 0 exactly when the product needs more than `K` bits. -/
theorem upperNotZero_mulWords {s : State} (h : s.Wf) (a b : Reg) :
    upperNotZero s.cfg.W (mulWords s.cfg.B s.cfg.W (s.words a) (s.words b)) =
      decide (2 ^ s.cfg.K ≤ s.value a * s.value b) := by
  obtain ⟨⟨hlen, hP⟩, hval⟩ := mulWords_exact h a b
  rw [upperNotZero_eq hlen hP, hval]
  rfl

/-! ## MUL (R161) -/

theorem exec_mul (s : State) (xd xa xb : Reg) :
    exec (.mul xd xa xb) s = .next { s with
      x := s.x.set xd ((mulWords s.cfg.B s.cfg.W (s.words xa) (s.words xb)).take s.cfg.W)
      status := { s.status.completed with
        ovf := upperNotZero s.cfg.W (mulWords s.cfg.B s.cfg.W (s.words xa) (s.words xb)) }
      hid := { s.hid with p := mulWords s.cfg.B s.cfg.W (s.words xa) (s.words xb) } } := rfl

/-- Settles O47: the scratch words are the exact product, the destination their lower half, OVF the test of their upper
half. -/
theorem mulResult : Obligations.MulResult := by
  intro s xd xa xb h
  rw [exec_mul, mulWords_take_value h, upperNotZero_mulWords h, mulWords_value h]

end Sys2Proof.Machine
end

section
/-! PROOFS of the family 44_mod_mulmod.md: MOD and MULMOD by value, and what the reduction unit and the product scratch
hold afterwards. What the statements stand on comes before them: the entry check of the modular commands, and the
registers the loop of R171 ends with. -/

namespace Sys2Proof.Machine

open Sys2Proof.Config (Params)

/-! ## The entry check of the modular commands (60_exceptions.md R224, R228) -/

theorem checkFails_of_modulus {i : Instr} {n : Reg} (hi : modulus i = some n) (s : State) :
    checkFails i s = if s.value n = 0 then some .degenerateModulus else none := by
  cases i with
  | sub _ _ _ => simp [modulus] at hi
  | _ => simp only [checkFails, hi]

theorem exec_of_modulus_zero {i : Instr} {s : State} {n : Reg} (hi : modulus i = some n) (h0 : s.value n = 0) :
    exec i s = .next { s with status := s.status.failed .degenerateModulus } := by
  rw [exec_eq, checkFails_of_modulus hi, if_pos h0]
  rfl

theorem exec_of_modulus_ne_zero {i : Instr} {s : State} {n : Reg} (hi : modulus i = some n) (h0 : s.value n ≠ 0) :
    exec i s = .next { effect i s with status := (effect i s).status.completed } := by
  rw [exec_eq, checkFails_of_modulus hi, if_neg h0]
  rfl

/-! ## The reduction unit (44_mod_mulmod.md R171 to R173) -/

/-- The loop of R171 ends with the remainder in REM, the modulus back in SM and the least alignment in KCNT: the shift
before it leaves the modulus at most the dividend, and so does every smaller one. -/
theorem reduceLoop_registers {p : Params} {a n : Nat} (ha : a < 2 ^ (2 * p.K)) (hn : n ≠ 0) :
    ∃ k, reduceLoop p a n = ⟨a % n, n, k⟩ ∧ a < n * 2 ^ k ∧ ∀ j < k, n * 2 ^ j ≤ a := by
  obtain ⟨k, hloop, hlt, hleast, -⟩ := reduceLoop_spec ha (Nat.pos_of_ne_zero hn)
  refine ⟨k, hloop, hlt, fun j hj => ?_⟩
  have hprev : n * 2 ^ (k - 1) ≤ a := hleast.resolve_left (Nat.ne_zero_of_lt hj)
  have hpow : 2 ^ j ≤ 2 ^ (k - 1) := Nat.pow_le_pow_right Nat.two_pos (Nat.le_sub_one_of_lt hj)
  exact (Nat.mul_le_mul_left n hpow).trans hprev

/-! ## MOD (R174) -/

/-- Settles O48: a register value is a dividend the loop of R171 reduces exactly. -/
theorem modResult : Obligations.ModResult := by
  intro s xd xa xn h
  constructor
  · exact exec_of_modulus_zero rfl
  · intro hn
    have ha : s.value xa < 2 ^ (2 * s.cfg.K) := (value_lt h xa).trans_le (two_pow_K_le _)
    obtain ⟨k, hloop, hlt, hleast⟩ := reduceLoop_registers ha hn
    refine ⟨k, ?_, hlt, hleast⟩
    rw [exec_of_modulus_ne_zero rfl hn, effect, hloop]
    rfl

/-! ## MULMOD (R176, R177) -/

/-- Of two registers of a well-formed state the hidden multiplier leaves the full product in P, and the reduction of that
product, not of a truncated one, leaves its remainder in REM. -/
theorem afterMulMod_registers {s : State} (h : s.Wf) (a b : Reg) {n : Nat} (hn : n ≠ 0) (hid : Hidden) :
    val s.cfg.B (hid.afterMulMod s.cfg n (s.value a) (s.value b)).p = s.value a * s.value b ∧
      (hid.afterMulMod s.cfg n (s.value a) (s.value b)).rem = s.value a * s.value b % n := by
  have hprod : productValue s.cfg (s.value a) (s.value b) = s.value a * s.value b :=
    productValue_eq (value_lt h a) (value_lt h b)
  obtain ⟨k, hloop, -⟩ := reduceLoop_registers (mul_lt_2K (value_lt h a) (value_lt h b)) hn
  refine ⟨hprod, ?_⟩
  rw [Hidden.afterMulMod, hprod, hloop]
  rfl

/-- Settles O49: nothing is dropped between the product and its reduction. -/
theorem mulmodResult : Obligations.MulmodResult := by
  intro s xd xa xb xn h
  constructor
  · exact exec_of_modulus_zero rfl
  · intro hn
    refine ⟨s.hid.afterMulMod s.cfg (s.value xn) (s.value xa) (s.value xb), ?_, afterMulMod_registers h xa xb hn s.hid⟩
    rw [exec_of_modulus_ne_zero rfl hn, effect, mulMod_eq (value_lt h xa) (value_lt h xb)]
    rfl

end Sys2Proof.Machine
end

section
/-! PROOFS of the family 45_exp_binary.md: the two exponentiation methods by value on registers, their agreement, and how
many multiplications each makes. Both methods are stated for either multiplier, so each serves two commands. -/

namespace Sys2Proof.Machine

open Sys2Proof.Config (Params)

/-! ## The table of results (45_exp_binary.md R188) -/

theorem expTable_one (M n : Nat) : expTable M 1 n = M := rfl

theorem expTable_of_two_le {M E n : Nat} (hE : 2 ≤ E) : expTable M E n = M ^ E % n := by
  rw [expTable, if_neg (by omega), if_neg (by omega)]

theorem expTable_value_lt {s : State} (h : s.Wf) (xm xe : Reg) {xn : Reg} (hn : s.value xn ≠ 0) :
    expTable (s.value xm) (s.value xe) (s.value xn) < 2 ^ s.cfg.K :=
  expTable_lt (Nat.pos_of_ne_zero hn) (value_lt h xn) (value_lt h xm)

/-! ## The exponentiation commands, for either multiplier (45_exp_binary.md R186, R187; 46_exp_windowed.md R199, R200) -/

theorem run_exact_value {s : State} (h : s.Wf) (m : Multiplier) {xn : Reg} (hn : s.value xn ≠ 0) :
    Exact s.cfg (s.value xn) (m.run s.cfg (s.value xn)) :=
  run_exact m (Nat.pos_of_ne_zero hn) (value_lt h xn)

theorem expBin_value {s : State} (h : s.Wf) (m : Multiplier) (xm xe : Reg) {xn : Reg} (hn : s.value xn ≠ 0) :
    expBin (m.run s.cfg (s.value xn)) (s.value xm) (s.value xe) = expTable (s.value xm) (s.value xe) (s.value xn) :=
  expBin_eq (run_exact_value h m hn) (Nat.pos_of_ne_zero hn) (value_lt h xn) (value_lt h xm)

theorem one_le_windowWidth {s : State} (h : s.Wf) : 1 ≤ s.cfg.r := by
  obtain ⟨⟨-, -, hr, -⟩, -⟩ := h
  exact hr

theorem expWin_value {s : State} (h : s.Wf) (m : Multiplier) (xm xe : Reg) {xn : Reg} (hn : s.value xn ≠ 0) :
    expWin s.cfg (m.run s.cfg (s.value xn)) (s.value xm) (s.value xe) =
      expTable (s.value xm) (s.value xe) (s.value xn) :=
  expWin_eq (run_exact_value h m hn) (one_le_windowWidth h) (Nat.pos_of_ne_zero hn) (value_lt h xn) (value_lt h xm)
    (value_lt h xe)

theorem execExpBinary_value {s : State} (h : s.Wf) (m : Multiplier) (xd xm xe : Reg) {xn : Reg} (hn : s.value xn ≠ 0) :
    execExpBinary m xd xm xe xn s = .next { s with
      x := s.x.set xd (big s.cfg.B s.cfg.W (expTable (s.value xm) (s.value xe) (s.value xn)))
      status := s.status.completed
      hid := s.hid.afterExpBin m s.cfg (s.value xn) (s.value xm) (s.value xe) } := by
  refine (withModulus_pos s _ hn).trans ?_
  rw [expBin_value h m xm xe hn]
  rfl

theorem execExpWindowed_value {s : State} (h : s.Wf) (m : Multiplier) (xd xm xe : Reg) {xn : Reg}
    (hn : s.value xn ≠ 0) :
    execExpWindowed m xd xm xe xn s = .next { s with
      x := s.x.set xd (big s.cfg.B s.cfg.W (expTable (s.value xm) (s.value xe) (s.value xn)))
      dig := digits s.cfg (s.value xe)
      status := s.status.completed
      hid := s.hid.afterExpWin m s.cfg (s.value xn) (s.value xm) (s.value xe) } := by
  refine (withModulus_pos s _ hn).trans ?_
  rw [expWin_value h m xm xe hn]
  rfl

theorem exec_expBinary_of_mem {xd xm xe xn : Reg} {i : Instr} (hi : i ∈ [.expb xd xm xe xn, .expbk xd xm xe xn])
    (s : State) : ∃ m, exec i s = execExpBinary m xd xm xe xn s := by
  obtain rfl | rfl := List.mem_pair.1 hi
  · exact ⟨.mulReduce, rfl⟩
  · exact ⟨.blakley, rfl⟩

/-- Settles O51: with either multiplier the binary method leaves the table's value. -/
theorem binaryExponentiationResult : Obligations.BinaryExponentiationResult := by
  intro s xd xm xe xn i h hn hi
  obtain ⟨m, hm⟩ := exec_expBinary_of_mem hi s
  refine ⟨_, _, hm.trans (execExpBinary_value h m xd xm xe hn), expTable_value_lt h xm xe hn, ?_, ?_, ?_⟩
  · intro h0
    rw [h0]
    rfl
  · intro h1
    rw [h1, expTable_one]
  · exact expTable_of_two_le

/-- Settles O57: both methods, with either multiplier, write the words of the table's value. -/
theorem exponentiationsAgree : Obligations.ExponentiationsAgree := by
  intro s xd xm xe xn h hn
  exact ⟨_, _, _, _, execExpBinary_value h .mulReduce xd xm xe hn, execExpBinary_value h .blakley xd xm xe hn,
    execExpWindowed_value h .mulReduce xd xm xe hn, execExpWindowed_value h .blakley xd xm xe hn, rfl, rfl, rfl⟩

/-! ## The multiplications of an exponentiation (45_exp_binary.md R186, 46_exp_windowed.md R199) -/

theorem length_filter_range_succ (q : Nat → Bool) (i : Nat) :
    ((List.range (i + 1)).filter q).length = ((List.range i).filter q).length + if q i then 1 else 0 := by
  rw [List.range_succ, List.filter_append, List.length_append, List.filter_singleton]
  cases q i <;> rfl

/-- A multiplication made only under a condition counts 1 or 0. -/
theorem length_ite_singleton (c : Prop) [Decidable c] (ab : Nat × Nat) :
    (if c then [ab] else []).length = if c then 1 else 0 := apply_ite List.length c [ab] []

/-- One squaring per bit below `i`, and one multiplication per set bit among them. -/
theorem length_expBinCalls (mm : Nat → Nat → Nat) (M E i C : Nat) :
    (expBinCalls mm M E i C).length = i + ((List.range i).filter fun k => bit E k = 1).length := by
  induction i generalizing C with
  | zero => rfl
  | succ i ih =>
    simp only [expBinCalls, List.length_cons, List.length_append, length_ite_singleton, ih, length_filter_range_succ,
      decide_eq_true_eq]
    ring

theorem length_squareCalls (mm : Nat → Nat → Nat) (count C : Nat) : (squareCalls mm count C).length = count := by
  induction count generalizing C with
  | zero => rfl
  | succ count ih => rw [squareCalls, List.length_cons, ih]

theorem length_powerCalls (T : List Nat) (M : Nat) : (powerCalls T M).length = T.length - 2 := by
  rw [powerCalls, List.length_map, List.length_dropLast, List.length_tail, Nat.sub_sub]

/-- `r` squarings per digit below `i`, and one multiplication per non-zero digit among them. -/
theorem length_expWinCalls (p : Params) (mm : Nat → Nat → Nat) (T d : List Nat) (i C : Nat) :
    (expWinCalls p mm T d i C).length = i * p.r + ((List.range i).filter fun k => wordAt d k ≠ 0).length := by
  induction i generalizing C with
  | zero => simp [expWinCalls]
  | succ i ih =>
    simp only [expWinCalls, List.length_append, length_squareCalls, length_ite_singleton, ih, length_filter_range_succ,
      decide_eq_true_eq]
    ring

/-- Settles O59: for a non-zero exponent the calls are those of the loop, below the top bit, and those of the table and
of the loop below the top digit. -/
theorem multiplicationCounts : Obligations.MultiplicationCounts := by
  intro p mm M E hp hE _
  obtain ⟨-, -, hr, -⟩ := hp
  constructor
  · rw [expBinAllCalls, if_neg hE, length_expBinCalls]
  · rw [expWinAllCalls, if_neg hE, List.length_append, length_powerCalls, length_powerTable hr, length_expWinCalls,
      Nat.add_assoc]

end Sys2Proof.Machine
end


section
/-! PROOFS of the family 46_exp_windowed.md: the windowed exponentiations by value with the digits they leave in DIG, and
the decomposer's digits and digit count. What the statements stand on comes before them: each digit of DIG as a slice of
the exponent, and the zeros above the digit count. -/

namespace Sys2Proof.Machine

open Sys2Proof.Config (Params)

/-! ## The digits of an exponent (46_exp_windowed.md R195) -/

/-- DIG holds the base-`2^r` digits of a value. -/
theorem digits_slices (p : Params) (E : Nat) :
    (digits p E).length = p.dmax ∧ ∀ j < p.dmax, wordAt (digits p E) j = E / 2 ^ (j * p.r) % 2 ^ p.r :=
  ⟨length_digits p E, fun _ hj => wordAt_digits hj⟩

theorem digitCount_zero {p : Params} (hr : 1 ≤ p.r) : digitCount p 0 = 0 :=
  Nat.div_eq_of_lt (by rw [nbits, if_pos rfl]; omega)

/-- From the digit count up nothing of the exponent is left. -/
theorem digit_of_digitCount_le {p : Params} {E j : Nat} (hr : 1 ≤ p.r) (hj : digitCount p E ≤ j) : digit p E j = 0 := by
  have hlt : E < 2 ^ (j * p.r) :=
    (lt_two_pow_digits hr).trans_le (Nat.pow_le_pow_right Nat.two_pos (Nat.mul_le_mul_right _ hj))
  rw [digit, Nat.div_eq_of_lt hlt]
  exact Nat.zero_mod _

/-- From the digit count up DIG holds 0, and past its end nothing is read. -/
theorem wordAt_digits_of_digitCount_le {p : Params} {E j : Nat} (hr : 1 ≤ p.r) (hj : digitCount p E ≤ j) :
    wordAt (digits p E) j = 0 := by
  by_cases hd : j < p.dmax
  · rw [wordAt_digits hd, digit_of_digitCount_le hr hj]
  · exact List.getD_eq_default _ _ ((length_digits p E).trans_le (Nat.le_of_not_lt hd))

/-- A non-zero exponent has a top digit, which is in DIG and is not 0. -/
theorem wordAt_digits_top {p : Params} {E : Nat} (hr : 1 ≤ p.r) (hE : E < 2 ^ p.K) (h0 : E ≠ 0) :
    1 ≤ digitCount p E ∧ wordAt (digits p E) (digitCount p E - 1) ≠ 0 := by
  have hpos : 1 ≤ digitCount p E := digitCount_pos hr h0
  obtain ⟨-, htop⟩ := top_digit hr h0
  refine ⟨hpos, ?_⟩
  rw [wordAt_digits ((Nat.sub_one_lt_of_le hpos le_rfl).trans_le (digitCount_le hE))]
  exact Nat.ne_of_gt htop

/-! ## EXPW and EXPWK (R199 to R201) -/

theorem exec_expWindowed_of_mem {xd xm xe xn : Reg} {i : Instr} (hi : i ∈ [.expw xd xm xe xn, .expwk xd xm xe xn])
    (s : State) : ∃ m, exec i s = execExpWindowed m xd xm xe xn s := by
  obtain rfl | rfl := List.mem_pair.1 hi
  · exact ⟨.mulReduce, rfl⟩
  · exact ⟨.blakley, rfl⟩

/-- Settles O52: with either multiplier the windowed method leaves the table's value, and the digits whatever the
exponent. -/
theorem windowedExponentiationResult : Obligations.WindowedExponentiationResult := by
  intro s xd xm xe xn i h hn hi
  obtain ⟨m, hm⟩ := exec_expWindowed_of_mem hi s
  refine ⟨_, _, _, hm.trans (execExpWindowed_value h m xd xm xe hn), expTable_value_lt h xm xe hn, ?_, ?_,
    expTable_of_two_le, digits_slices _ _⟩
  · intro h0
    rw [h0]
    rfl
  · intro h1
    rw [h1, expTable_one]

/-! ## DECOMP (R195, R196) -/

theorem exec_decomp (s : State) (xe : Reg) :
    exec (.decomp xe) s = .next { s with
      dig := digits s.cfg (s.value xe)
      sres := countWord (digitCount s.cfg (s.value xe))
      status := s.status.completed } := rfl

/-- Settles O53: the digits and the digit count of a value below `2^K`. -/
theorem decompResult : Obligations.DecompResult := by
  intro s xe h
  have hr := one_le_windowWidth h
  have hE := value_lt h xe
  obtain ⟨hlen, hslice⟩ := digits_slices s.cfg (s.value xe)
  refine ⟨digitCount s.cfg (s.value xe), _, exec_decomp s xe, rfl, digitCount_le hE, hlen, hslice, val_digits hr hE, ?_,
    wordAt_digits_top hr hE, fun _ => wordAt_digits_of_digitCount_le hr⟩
  intro h0
  rw [h0, digitCount_zero hr]

end Sys2Proof.Machine
end

section
/-! PROOFS of the family 47_blakley.md: BLAK by value, and each step of the Blakley multiplier as repeated subtraction with
a bound on the subtractions. What the second stands on comes before it: the count of the loop for any allowance, and the
quotient of a step. -/

namespace Sys2Proof.Machine

open Sys2Proof.Config (Params)

/-! ## BLAK (R211, R213) -/

theorem blakley_value {s : State} (h : s.Wf) (xa xb : Reg) {xn : Reg} (hn : s.value xn ≠ 0) :
    blakley s.cfg (s.value xn) (s.value xa) (s.value xb) = s.value xa * s.value xb % s.value xn :=
  blakley_eq (Nat.pos_of_ne_zero hn) (value_lt h xn) (value_lt h xa) (value_lt h xb)

/-- Settles O50: the destination and RB both receive the multiplier's result, which is exact on register values. -/
theorem blakResult : Obligations.BlakResult := by
  intro s xd xa xb xn h
  constructor
  · exact exec_of_modulus_zero rfl
  · intro hn
    refine ⟨s.hid.afterBlakley s.cfg (s.value xn) (s.value xa) (s.value xb), ?_, blakley_value h xa xb hn⟩
    rw [exec_of_modulus_ne_zero rfl hn, effect, blakley_value h xa xb hn]
    rfl

/-! ## A step as repeated subtraction (R211, R212, R214) -/

/-- Whatever it is allowed, the loop never subtracts more often than the modulus goes into `R`. -/
theorem subtractWhile_count_le {n : Nat} (hn : 1 ≤ n) (fuel R : Nat) : (subtractWhile n fuel R).2 ≤ R / n := by
  induction fuel generalizing R with
  | zero => exact Nat.zero_le _
  | succ fuel ih =>
    rw [subtractWhile]
    split
    · next hle =>
      rw [Nat.div_eq_sub_div hn hle]
      exact Nat.succ_le_succ (ih (R - n))
    · exact Nat.zero_le _

/-- From `R < n` the shift brings at most two moduli and the addition at most `b` (47_blakley.md R214). -/
theorem blakleyShiftAdd_div_le {p : Params} {a b n i R : Nat} (hn : n < 2 ^ p.K) (hb : b < 2 ^ p.K) (hR : R < n) :
    blakleyShiftAdd p a b i R / n ≤ 2 + b / n := by
  have hadd : bit a i * b ≤ b := mul_le_of_le_one_left b.zero_le (bit_le_one a i)
  rw [blakleyShiftAdd_eq hn hb hR]
  calc (2 * R + bit a i * b) / n ≤ (n * 2 + b) / n := Nat.div_le_div_right (by omega)
    _ = 2 + b / n := Nat.mul_add_div (Nat.zero_lt_of_lt hR) 2 b

/-- The allowance of R214 is enough: the loop ends with the step's result. -/
theorem subtractWhile_blakleyShiftAdd {p : Params} {a b n i R : Nat} (hn : n < 2 ^ p.K) (hb : b < 2 ^ p.K)
    (hR : R < n) :
    (subtractWhile n (2 + b / n) (blakleyShiftAdd p a b i R)).1 = blakleyStep p a b n i R := by
  rw [subtractWhile_eq (Nat.one_le_of_lt hR) _ _ (blakleyShiftAdd_div_le hn hb hR), blakleyStep]

theorem blakleyStep_lt {p : Params} {a b n i R : Nat} (hn0 : 1 ≤ n) : blakleyStep p a b n i R < n := Nat.mod_lt _ hn0

/-- Every step starts below the modulus, so every step's loop ends with the step's result. -/
theorem blakleyBySubtraction_eq {p : Params} {a b n : Nat} (hn : n < 2 ^ p.K) (hb : b < 2 ^ p.K) (i : Nat) {R : Nat}
    (hR : R < n) : blakleyBySubtraction p a b n i R = blakleyLoop p a b n i R := by
  induction i generalizing R with
  | zero => rfl
  | succ i ih =>
    rw [blakleyBySubtraction, blakleyLoop, subtractWhile_blakleyShiftAdd hn hb hR]
    exact ih (blakleyStep_lt (Nat.one_le_of_lt hR))

/-- Settles O58: no bit is lost, so the loop's subtractions are counted by the quotient of `2R + bit * b` by the
modulus, which is at most `2 + b div n`. -/
theorem blakleyStepsAreRepeatedSubtraction : Obligations.BlakleyStepsAreRepeatedSubtraction := by
  intro p a b n hn0 hn _ hb
  refine ⟨fun i R hR => ?_, blakleyBySubtraction_eq hn hb p.K hn0⟩
  have hresult := subtractWhile_blakleyShiftAdd (a := a) (i := i) hn hb hR
  have hcount (fuel : Nat) : (subtractWhile n fuel (blakleyShiftAdd p a b i R)).2 ≤ 2 + b / n :=
    (subtractWhile_count_le hn0 _ _).trans (blakleyShiftAdd_div_le hn hb hR)
  refine ⟨blakleyShiftAdd_eq hn hb hR, hresult, hresult.trans_lt (blakleyStep_lt hn0), hcount, fun hlt fuel => ?_⟩
  simpa only [Nat.div_eq_of_lt hlt] using hcount fuel

end Sys2Proof.Machine
end

section
/-! PROOFS of the families 60_exceptions.md and 70_reset_and_hazards.md: what an error writes and when it is taken, the idle
core's turn, reset in a run, and what the outcome of a command depends on. For the last, two states are compared that agree
on a command's inputs; that its check and each result it writes agree as well is shown field by field. -/

namespace Sys2Proof.Machine

/-! ## Errors (60_exceptions.md R220 to R229) -/

/-- Settles O28: in a well-formed state the entry check is the error condition, and an error writes STATUS only. -/
theorem errorsArePrecise : Obligations.ErrorsArePrecise := by
  intro i s e h he
  rw [exec_eq, checkFails_eq h, he]
  rfl

/-- Settles O30: the minuend below the subtrahend is the error condition of SUB, and its code is 2. -/
theorem subUnderflows : Obligations.SubUnderflows := fun s xd xa xb h hlt =>
  errorsArePrecise (.sub xd xa xb) s .underflow h (if_pos hlt)

theorem modulus_of_mem {xd xa xb xn : Reg} {i : Instr}
    (hi : i ∈ [.mod xd xa xn, .mulmod xd xa xb xn, .expb xd xa xb xn, .expbk xd xa xb xn, .expw xd xa xb xn,
      .expwk xd xa xb xn, .blak xd xa xb xn]) : modulus i = some xn := by
  simp only [List.mem_cons, List.not_mem_nil, or_false] at hi
  obtain rfl | rfl | rfl | rfl | rfl | rfl | rfl := hi <;> rfl

/-- Settles O31: the seven commands are those with a modulus register, which is tested before any other operand. -/
theorem zeroModulusIsRefusedFirst : Obligations.ZeroModulusIsRefusedFirst := fun _ _ _ _ _ _ h0 hi =>
  exec_of_modulus_zero (modulus_of_mem hi) h0

/-- Settles O6: at a completion turn a word that decodes to no command raises IllegalCommand. -/
theorem illegalWordEndsInIllegalCommand : Obligations.IllegalWordEndsInIllegalCommand := by
  intro s e hl hb ha hd
  rw [step_completion_turn hl ha hb, hd]
  rfl

/-! ## An idle machine (60_exceptions.md R241) -/

theorem nextAgent_of_idle {s : State} (hb : s.status.busy = false) (hq : s.sched = []) : s.nextAgent = .host := by
  simp [State.nextAgent, hq, hb]

theorem takeTurn_of_sched_nil {s : State} (hq : s.sched = []) : s.takeTurn = s := by
  rw [State.takeTurn, hq, List.tail_nil, ← hq]

/-- Settles O10: the turn is the host's, which has nothing left to do, and there is no scheduled turn to take. -/
theorem idleMachineWaits : Obligations.IdleMachineWaits := by
  intro s hl hb hq hs
  rw [step_unused_turn hl (.inr ⟨nextAgent_of_idle hb hq, hs⟩), takeTurn_of_sched_nil hq]

/-! ## Reset in a run (70_reset_and_hazards.md R250, R251) -/

theorem step_of_nextAction {s : State} {act : HostAction} (hl : s.cfg.Legal) (hn : nextAction s = some act) :
    ∃ rest, step s = .next ((s.takeAction rest).hostAct act) := by
  obtain ⟨-, -, hn', -⟩ | ⟨hn', -⟩ | ⟨act', rest, -, -, hn', hstep⟩ := step_cases hl
  · cases hn.symm.trans hn'
  · cases hn.symm.trans hn'
  · obtain rfl : act = act' := Option.some.inj (hn.symm.trans hn')
    exact ⟨rest, hstep⟩

/-- Settles O23: the step is the reset of the state with the turn and the action taken, busy or not. -/
theorem resetEndsTheCommandInFlight : Obligations.ResetEndsTheCommandInFlight := by
  intro s hl hn
  obtain ⟨rest, hstep⟩ := step_of_nextAction hl hn
  exact ⟨(s.takeAction rest).hostReset, hstep, rfl, rfl, statusReset_word, rfl, rfl, rfl, rfl, rfl, rfl⟩

/-! ## What the outcome of a command depends on (70_reset_and_hazards.md R263) -/

@[simp] theorem words_setValue_same (s : State) (i : Reg) (v : Nat) :
    (s.setValue i v).words i = big s.cfg.B s.cfg.W v := words_setWords_same _ _ _

@[simp] theorem words_setOvf (s : State) (v : Bool) (i : Reg) : (s.setOvf v).words i = s.words i := rfl

@[simp] theorem words_setDig (s : State) (d : List Nat) (i : Reg) : (s.setDig d).words i = s.words i := rfl

@[simp] theorem words_setHidden (s : State) (h : Hidden) (i : Reg) : (s.setHidden h).words i = s.words i := rfl

/-- Two states with the same parameters and the same words in the registers a command reads. -/
structure SameInputs (i : Instr) (s u : State) : Prop where
  cfg : s.cfg = u.cfg
  words : ∀ r ∈ sources i, s.words r = u.words r

theorem SameInputs.value {i : Instr} {s u : State} (h : SameInputs i s u) : ∀ r ∈ sources i, s.value r = u.value r := by
  intro r hr
  rw [State.value, State.value, h.cfg, h.words r hr]

section SameInputs

/-! Per command the two hypotheses on its sources become one equation for each, and these rewrite every input of its check
and of its effect. -/

variable {i : Instr} {s u : State}

theorem checkFails_congr (h : SameInputs i s u) : checkFails i s = checkFails i u := by
  have hv := h.value
  obtain ⟨hc, hw⟩ := h
  cases i with
  | sub _ _ _ | mod _ _ _ | mulmod _ _ _ _ | expb _ _ _ _ | expbk _ _ _ _ | expw _ _ _ _ | expwk _ _ _ _
  | blak _ _ _ _ =>
    simp only [sources, List.forall_mem_cons] at hw hv
    simp only [checkFails, modulus, hw, hv]
  | _ => rfl

theorem effect_dest_congr (h : SameInputs i s u) {d : Reg} (hd : dest i = some d) :
    (effect i s).words d = (effect i u).words d := by
  have hv := h.value
  obtain ⟨hc, hw⟩ := h
  cases i with
  | cmp _ _ | getbit _ _ | nbits _ | decomp _ => cases hd
  | _ =>
    obtain rfl := Option.some.inj hd
    simp only [sources, List.forall_mem_cons] at hw hv
    simp [effect, hc, hw, hv]

theorem effect_ovf_congr (h : SameInputs i s u) (ho : writesOvf i = true) :
    (effect i s).status.ovf = (effect i u).status.ovf := by
  obtain ⟨hc, hw⟩ := h
  cases i with
  | add _ _ _ | mul _ _ _ =>
    simp only [sources, List.forall_mem_cons] at hw
    simp [effect, hc, hw]
  | _ => cases ho

theorem effect_sres_congr (h : SameInputs i s u) (hs : writesSres i = true) : (effect i s).sres = (effect i u).sres := by
  have hv := h.value
  obtain ⟨hc, hw⟩ := h
  cases i with
  | cmp _ _ | getbit _ _ | nbits _ | decomp _ =>
    simp only [sources, List.forall_mem_cons] at hw hv
    simp [effect, hc, hw, hv]
  | _ => cases hs

theorem effect_dig_congr (h : SameInputs i s u) (hd : writesDig i = true) : (effect i s).dig = (effect i u).dig := by
  have hv := h.value
  have hc := h.cfg
  cases i with
  | decomp _ | expw _ _ _ _ | expwk _ _ _ _ =>
    simp only [sources, List.forall_mem_cons] at hv
    simp [effect, hc, hv]
  | _ => cases hd

end SameInputs

/-- Settles O39: both commands fail their check, with the same error, or both leave the same results. -/
theorem outcomeDependsOnNamedRegistersOnly : Obligations.OutcomeDependsOnNamedRegistersOnly := by
  intro i s u s' u' hc hw hs hu
  have h : SameInputs i s u := ⟨hc, hw⟩
  have hf := checkFails_congr h
  obtain ⟨e, hes, rfl⟩ | ⟨hes, rfl⟩ := exec_cases hs <;> obtain ⟨e', heu, rfl⟩ | ⟨heu, rfl⟩ := exec_cases hu
  · obtain rfl : e = e' := Option.some.inj (hes.symm.trans (hf.trans heu))
    exact ⟨rfl, rfl, fun herr => by cases herr⟩
  · cases hes.symm.trans (hf.trans heu)
  · cases hes.symm.trans (hf.trans heu)
  · exact ⟨rfl, rfl, fun _ => ⟨fun _ => effect_dest_congr h, effect_ovf_congr h, effect_sres_congr h, effect_dig_congr h⟩⟩

end Sys2Proof.Machine
end
